-- ==== Sys2Proof/Word.lean ====
section
/-! DEFINITION. The word types of the RR Machine core (spec/00_scope.md R5, R7, R8).
Every value of the machine is an unsigned bit vector of a stated width and bit 0 is its least significant bit, so the
wrap-around arithmetic of `BitVec` is the machine's arithmetic (R8: "all arithmetic wraps modulo its field width"). -/

namespace Sys2Proof

/-- A register, a memory cell, an address, the program counter, one scratch field (R5: 8 bits). -/
abbrev Byte := BitVec 8

/-- An instruction word, the instruction register (R5, R50: 16 bits). -/
abbrev Word := BitVec 16

/-- A 4-bit instruction field: a register index R, S or T (R60: all 16 are legal), the control nibble of ROT (R69),
an opcode (R51). -/
abbrev Nibble := BitVec 4

/-- The index of one of the 16 registers; index 15 is the stack pointer (R11, R12). -/
abbrev RegIdx := Nibble

/-- A 2-bit flag field: bit 1 concerns Z and bit 0 concerns C (R58, R59). -/
abbrev FlagPair := BitVec 2

/-- The nine-bit ring ROT rotates: the carry is bit 8, the register bits 7 to 0 (R94). -/
abbrev Ring := BitVec 9

end Sys2Proof
end

