-- ==== Sys2Proof/Config.lean ====
section
/-! DEFINITION. The three implementation parameters of the spec (spec/00_scope.md R5; spec/92_eei_decisions.md, "Open
parameters in one place"): D2, D3 and D5 are OPEN, each with a default the spec decides and one alternative.
Nothing else of the core is left to an implementation; what
memory holds after a load that failed, at the boundary, is a free value below. The values the machine `Sys2Proof.core` runs with are
`Machine.params` in Sys2Proof/Machine/Params.lean; everything that reads a parameter also exists for any `Config`. -/

namespace Sys2Proof

/-- `HLT_PC_ADVANCE` (R5, R74, R75, R130; D2): what HLT's Execute adds to `pc`, 2 by default, 0 the alternative. -/
inductive HltPcAdvance where
  | two
  | zero
deriving DecidableEq, Repr

/-- The number `HLT_PC_ADVANCE` stands for. -/
def HltPcAdvance.amount : HltPcAdvance → Byte
  | .two => 2
  | .zero => 0

/-- `ROT_CTRL_SOURCE` (R5, R69, R93; D3): where ROT takes its 4-bit control value. -/
inductive RotCtrlSource where
  /-- the T field of the instruction itself, `ir[3:0]` (the default) -/
  | field
  /-- `x[T][3:0]`, the low four bits of register T (the alternative) -/
  | register
deriving DecidableEq, Repr

/-- The machine's parameters. -/
structure Config where
  hltPcAdvance : HltPcAdvance
  rotCtrlSource : RotCtrlSource
  /-- `WARM_RESET_CLEARS_SCRATCH` (R5, R27, R161; D5): whether `reset_registers` zeroes `d[0..3]`; false by default. -/
  warmResetClearsScratch : Bool
deriving DecidableEq, Repr

/-- The defaults of R5: D2 (2), D3 (`field`), D5 (false). They are the spec's own decisions, not the source's words
(logs 3, 4 and 5). -/
def Config.specDefault : Config where
  hltPcAdvance := .two
  rotCtrlSource := .field
  warmResetClearsScratch := false

/-- A free value: what cell `address` holds after a `load_memory` that failed because `source` was too short, with memory as it was
`before`. The spec states nothing of it (spec/93_implementation_defined.md U3: "any value"; log 10). -/
opaque Config.cellAfterShortLoad (source : List Byte) (before : List (Nat × Byte)) (address : Nat) : Byte

end Sys2Proof
end

