-- ==== Sys2Proof/Syntax.lean ====
section
/-! DEFINITION. The RR instruction set as syntax: one constructor per row of spec/opcode_table.json, in the table's order
(spec/30_encoding.md R63), with the operands in the order of the table's "operands" column. A constructor holds the named
fields of its format only: the bits a format ignores (R61) are no operand. The decoded operand fields of R20 stand here
too, since they are a second spelling of an instruction. -/

namespace Sys2Proof

/-- The 16 opcodes (R63): "opcode space is fully covered by the nibble" (R62). -/
inductive Opcode where
  | hlt | adc | and | xor | rot | ldi | ldm | ldr | sto | str | psh | pop | jsr | ret | bra | mdf
deriving DecidableEq, Repr

/-- An instruction. `r` is the field R, `a` the field S, `b` the field T. -/
inductive Instr where
  /-- HLT (format N, R52) -/
  | hlt
  /-- ADC R,S,T (format RST, R53) -/
  | adc (r a b : RegIdx)
  /-- AND R,S,T (format RST, R53) -/
  | and (r a b : RegIdx)
  /-- XOR R,S,T (format RST, R53) -/
  | xor (r a b : RegIdx)
  /-- ROT R,S,T (format RST, R53); `ctl` is the field T, a control nibble by default (R69) -/
  | rot (r a : RegIdx) (ctl : Nibble)
  /-- LDI R,imm (format RI, R54) -/
  | ldi (r : RegIdx) (imm : Byte)
  /-- LDM R,addr (format RI, R54) -/
  | ldm (r : RegIdx) (addr : Byte)
  /-- LDR R,S (format RS, R55) -/
  | ldr (r a : RegIdx)
  /-- STO R,addr (format RI, R54) -/
  | sto (r : RegIdx) (addr : Byte)
  /-- STR R,S (format RS, R55) -/
  | str (r a : RegIdx)
  /-- PSH R (format R, R56) -/
  | psh (r : RegIdx)
  /-- POP R (format R, R56) -/
  | pop (r : RegIdx)
  /-- JSR target (format J, R57) -/
  | jsr (target : Byte)
  /-- RET (format N, R52) -/
  | ret
  /-- BRA select,state,target (format B, R58); `want` is the field `state` -/
  | bra (select want : FlagPair) (target : Byte)
  /-- MDF select,state (format M, R59); `want` is the field `state` -/
  | mdf (select want : FlagPair)
deriving DecidableEq, Repr

/-- `decoded_operands`, the four 8-bit scratch fields `d[0..3]` (spec/10_state.md R20). -/
structure Scratch where
  d0 : Byte
  d1 : Byte
  d2 : Byte
  d3 : Byte
deriving DecidableEq, Repr

end Sys2Proof
end

