-- ==== Sys2Proof/WellFormed.lean ====
section
/-! DEFINITION. Which terms are well formed.

Every value of every instruction field is legal (spec/30_encoding.md R60, R62: "There is no invalid-opcode case"), and the
types of `Instr`'s fields are exactly the fields' widths, so `Instr.wellFormed`, which says R60's ranges in numbers, holds of
every instruction; the law family `Sys2Proof.Laws.ScratchForm` proves it constructor by constructor.

A quadruple of scratch fields is another matter: each is 8 bits wide (R20) while the field it carries may be 2, 4 or 8
bits wide, and a field the opcode does not use is 0 (R67). `Scratch.wellFormed` says which quadruples a Decode sub-step can
leave. A quadruple outside it can come only from a host poke (spec/60_exceptions.md R150). -/

namespace Sys2Proof

/-- The ranges of R60, in numbers. -/
def Instr.wellFormed : Instr → Bool
  | .hlt => true
  | .adc r a b => decide (r.toNat ≤ 15) && decide (a.toNat ≤ 15) && decide (b.toNat ≤ 15)
  | .and r a b => decide (r.toNat ≤ 15) && decide (a.toNat ≤ 15) && decide (b.toNat ≤ 15)
  | .xor r a b => decide (r.toNat ≤ 15) && decide (a.toNat ≤ 15) && decide (b.toNat ≤ 15)
  | .rot r a ctl => decide (r.toNat ≤ 15) && decide (a.toNat ≤ 15) && decide (ctl.toNat ≤ 15)
  | .ldi r imm => decide (r.toNat ≤ 15) && decide (imm.toNat ≤ 255)
  | .ldm r addr => decide (r.toNat ≤ 15) && decide (addr.toNat ≤ 255)
  | .ldr r a => decide (r.toNat ≤ 15) && decide (a.toNat ≤ 15)
  | .sto r addr => decide (r.toNat ≤ 15) && decide (addr.toNat ≤ 255)
  | .str r a => decide (r.toNat ≤ 15) && decide (a.toNat ≤ 15)
  | .psh r => decide (r.toNat ≤ 15)
  | .pop r => decide (r.toNat ≤ 15)
  | .jsr target => decide (target.toNat ≤ 255)
  | .ret => true
  | .bra select want target => decide (select.toNat ≤ 3) && decide (want.toNat ≤ 3) && decide (target.toNat ≤ 255)
  | .mdf select want => decide (select.toNat ≤ 3) && decide (want.toNat ≤ 3)

/-- `d` can be what a Decode sub-step leaves (R67): the opcode nibble in `d[0]`, each used field within its width, each
unused field 0. The rows are those of R67's table. -/
def Scratch.wellFormed (d : Scratch) : Bool :=
  match d.d0.toNat with
  | 0 | 13 => d.d1 == 0 && d.d2 == 0 && d.d3 == 0
  | 1 | 2 | 3 | 4 => decide (d.d1.toNat ≤ 15) && decide (d.d2.toNat ≤ 15) && decide (d.d3.toNat ≤ 15)
  | 5 | 6 | 8 => decide (d.d1.toNat ≤ 15) && d.d3 == 0
  | 7 | 9 => decide (d.d1.toNat ≤ 15) && decide (d.d2.toNat ≤ 15) && d.d3 == 0
  | 10 | 11 => decide (d.d1.toNat ≤ 15) && d.d2 == 0 && d.d3 == 0
  | 12 => d.d2 == 0 && d.d3 == 0
  | 14 => decide (d.d1.toNat ≤ 3) && decide (d.d2.toNat ≤ 3)
  | 15 => decide (d.d1.toNat ≤ 3) && decide (d.d2.toNat ≤ 3) && d.d3 == 0
  | _ => false

end Sys2Proof
end

