-- ==== Sys2Proof/Decode.lean ====
section
/-! DEFINITION. The decoder and the encoder (spec/30_encoding.md R50 to R69).

Decoding a 16-bit word is total: the top nibble picks the row of R63 and the row's format cuts the fields out (R64: "There is
nothing to refuse"). Only a list of bytes too short to hold a word is rejected, by name. The decoded operand fields of R67
(what Decode writes and Execute reads) are here too, with the way back. -/

namespace Sys2Proof

/-! ### Bytes and words (spec/20_memory.md R32) -/

/-- `{hi, lo}`: the byte at the lower address is the high byte of the word (R32: "big-endian"). -/
def wordOfBytes (hi lo : Byte) : Word := BitVec.ofNat 16 (hi.toNat * 256 + lo.toNat)

/-- `word[15:8]`, the byte stored at the instruction's address (R68). -/
def hiByte (w : Word) : Byte := w.extractLsb' 8 8

/-- `word[7:0]`, the byte stored at the next address (R68). -/
def loByte (w : Word) : Byte := w.extractLsb' 0 8

/-! ### The fields of a word (R52 to R59) -/

/-- `ir[15:12]`, the opcode of every format (R51). -/
def fieldOpcode (w : Word) : Nibble := w.extractLsb' 12 4

/-- `ir[11:8]`: R in formats RST, RI and R. -/
def field11to8 (w : Word) : Nibble := w.extractLsb' 8 4

/-- `ir[7:4]`: S in format RST, R in format RS. -/
def field7to4 (w : Word) : Nibble := w.extractLsb' 4 4

/-- `ir[3:0]`: T in format RST, S in format RS. -/
def field3to0 (w : Word) : Nibble := w.extractLsb' 0 4

/-- `ir[7:0]`: `imm`, `addr` or `target`. -/
def fieldLow8 (w : Word) : Byte := w.extractLsb' 0 8

/-- `ir[11:10]`: `select` in formats B and M. -/
def fieldSelect (w : Word) : FlagPair := w.extractLsb' 10 2

/-- `ir[9:8]`: `state` in formats B and M. -/
def fieldState (w : Word) : FlagPair := w.extractLsb' 8 2

/-! ### Opcodes (R63) -/

/-- The opcode a nibble stands for; the last row takes the one nibble left, 0xF. -/
def Opcode.ofNibble (n : Nibble) : Opcode :=
  match n with
  | 0x0#4 => .hlt
  | 0x1#4 => .adc
  | 0x2#4 => .and
  | 0x3#4 => .xor
  | 0x4#4 => .rot
  | 0x5#4 => .ldi
  | 0x6#4 => .ldm
  | 0x7#4 => .ldr
  | 0x8#4 => .sto
  | 0x9#4 => .str
  | 0xA#4 => .psh
  | 0xB#4 => .pop
  | 0xC#4 => .jsr
  | 0xD#4 => .ret
  | 0xE#4 => .bra
  | _ => .mdf

/-- The opcode nibble of an instruction (R63). -/
def Instr.opcode : Instr → Nibble
  | .hlt => 0x0#4
  | .adc _ _ _ => 0x1#4
  | .and _ _ _ => 0x2#4
  | .xor _ _ _ => 0x3#4
  | .rot _ _ _ => 0x4#4
  | .ldi _ _ => 0x5#4
  | .ldm _ _ => 0x6#4
  | .ldr _ _ => 0x7#4
  | .sto _ _ => 0x8#4
  | .str _ _ => 0x9#4
  | .psh _ => 0xA#4
  | .pop _ => 0xB#4
  | .jsr _ => 0xC#4
  | .ret => 0xD#4
  | .bra _ _ _ => 0xE#4
  | .mdf _ _ => 0xF#4

/-! ### Decoding -/

/-- The instruction a word stands for: R63 picks the row, R52 to R59 cut the fields. -/
def decodeWord (w : Word) : Instr :=
  match Opcode.ofNibble (fieldOpcode w) with
  | .hlt => .hlt
  | .adc => .adc (field11to8 w) (field7to4 w) (field3to0 w)
  | .and => .and (field11to8 w) (field7to4 w) (field3to0 w)
  | .xor => .xor (field11to8 w) (field7to4 w) (field3to0 w)
  | .rot => .rot (field11to8 w) (field7to4 w) (field3to0 w)
  | .ldi => .ldi (field11to8 w) (fieldLow8 w)
  | .ldm => .ldm (field11to8 w) (fieldLow8 w)
  | .ldr => .ldr (field7to4 w) (field3to0 w)
  | .sto => .sto (field11to8 w) (fieldLow8 w)
  | .str => .str (field7to4 w) (field3to0 w)
  | .psh => .psh (field11to8 w)
  | .pop => .pop (field11to8 w)
  | .jsr => .jsr (fieldLow8 w)
  | .ret => .ret
  | .bra => .bra (fieldSelect w) (fieldState w) (fieldLow8 w)
  | .mdf => .mdf (fieldSelect w) (fieldState w)

/-- Why a list of bytes is not an instruction followed by more bytes. -/
inductive DecodeError where
  /-- fewer than the two bytes every instruction has (R50) -/
  | truncated
deriving DecidableEq, Repr

/-- The instruction at the head of a list of bytes, and the bytes after it. -/
def decodeBytes : List Byte → Except DecodeError (Instr × List Byte)
  | hi :: lo :: rest => .ok (decodeWord (wordOfBytes hi lo), rest)
  | [_] => .error .truncated
  | [] => .error .truncated

/-! ### Encoding (R68) -/

/-- The canonical word of an instruction, by the formulas of R68: every ignored bit is 0. -/
def encode : Instr → Word
  | .hlt => BitVec.ofNat 16 0x0000
  | .adc r a b => BitVec.ofNat 16 (0x1000 + r.toNat * 0x100 + a.toNat * 0x10 + b.toNat)
  | .and r a b => BitVec.ofNat 16 (0x2000 + r.toNat * 0x100 + a.toNat * 0x10 + b.toNat)
  | .xor r a b => BitVec.ofNat 16 (0x3000 + r.toNat * 0x100 + a.toNat * 0x10 + b.toNat)
  | .rot r a ctl => BitVec.ofNat 16 (0x4000 + r.toNat * 0x100 + a.toNat * 0x10 + ctl.toNat)
  | .ldi r imm => BitVec.ofNat 16 (0x5000 + r.toNat * 0x100 + imm.toNat)
  | .ldm r addr => BitVec.ofNat 16 (0x6000 + r.toNat * 0x100 + addr.toNat)
  | .ldr r a => BitVec.ofNat 16 (0x7000 + r.toNat * 0x10 + a.toNat)
  | .sto r addr => BitVec.ofNat 16 (0x8000 + r.toNat * 0x100 + addr.toNat)
  | .str r a => BitVec.ofNat 16 (0x9000 + r.toNat * 0x10 + a.toNat)
  | .psh r => BitVec.ofNat 16 (0xA000 + r.toNat * 0x100)
  | .pop r => BitVec.ofNat 16 (0xB000 + r.toNat * 0x100)
  | .jsr target => BitVec.ofNat 16 (0xC000 + target.toNat)
  | .ret => BitVec.ofNat 16 0xD000
  | .bra select want target =>
      BitVec.ofNat 16 (0xE000 + select.toNat * 0x400 + want.toNat * 0x100 + target.toNat)
  | .mdf select want => BitVec.ofNat 16 (0xF000 + select.toNat * 0x400 + want.toNat * 0x100)

/-- The two bytes of an instruction in the order they lie in memory (R68: `M[a] = word[15:8]`, `M[a + 1] = word[7:0]`). -/
def encodeBytes (i : Instr) : List Byte := [hiByte (encode i), loByte (encode i)]

/-! ### The decoded operand fields (R67, spec/10_state.md R20)

Which named field goes to which of `d[1]`, `d[2]`, `d[3]` is decision D4 (log 6). -/

/-- What Decode writes into `d[0..3]`: the row of R67's table, each field zero-extended to 8 bits, the rest 0. -/
def scratchOf (i : Instr) : Scratch :=
  let op : Byte := i.opcode.setWidth 8
  match i with
  | .hlt => ⟨op, 0, 0, 0⟩
  | .adc r a b => ⟨op, r.setWidth 8, a.setWidth 8, b.setWidth 8⟩
  | .and r a b => ⟨op, r.setWidth 8, a.setWidth 8, b.setWidth 8⟩
  | .xor r a b => ⟨op, r.setWidth 8, a.setWidth 8, b.setWidth 8⟩
  | .rot r a ctl => ⟨op, r.setWidth 8, a.setWidth 8, ctl.setWidth 8⟩
  | .ldi r imm => ⟨op, r.setWidth 8, imm, 0⟩
  | .ldm r addr => ⟨op, r.setWidth 8, addr, 0⟩
  | .ldr r a => ⟨op, r.setWidth 8, a.setWidth 8, 0⟩
  | .sto r addr => ⟨op, r.setWidth 8, addr, 0⟩
  | .str r a => ⟨op, r.setWidth 8, a.setWidth 8, 0⟩
  | .psh r => ⟨op, r.setWidth 8, 0, 0⟩
  | .pop r => ⟨op, r.setWidth 8, 0, 0⟩
  | .jsr target => ⟨op, target, 0, 0⟩
  | .ret => ⟨op, 0, 0, 0⟩
  | .bra select want target => ⟨op, select.setWidth 8, want.setWidth 8, target⟩
  | .mdf select want => ⟨op, select.setWidth 8, want.setWidth 8, 0⟩

/-- The instruction Execute reads from `d[0..3]`: each field is the low bits of its scratch field, as many as the field is
wide. On what a Decode leaves this is the decoded instruction; on a quadruple that is not `Scratch.wellFormed`, which only a
host poke can make (R150), reading the low bits is the model's choice (log 7). -/
def instrOfScratch (d : Scratch) : Instr :=
  match Opcode.ofNibble (d.d0.setWidth 4) with
  | .hlt => .hlt
  | .adc => .adc (d.d1.setWidth 4) (d.d2.setWidth 4) (d.d3.setWidth 4)
  | .and => .and (d.d1.setWidth 4) (d.d2.setWidth 4) (d.d3.setWidth 4)
  | .xor => .xor (d.d1.setWidth 4) (d.d2.setWidth 4) (d.d3.setWidth 4)
  | .rot => .rot (d.d1.setWidth 4) (d.d2.setWidth 4) (d.d3.setWidth 4)
  | .ldi => .ldi (d.d1.setWidth 4) d.d2
  | .ldm => .ldm (d.d1.setWidth 4) d.d2
  | .ldr => .ldr (d.d1.setWidth 4) (d.d2.setWidth 4)
  | .sto => .sto (d.d1.setWidth 4) d.d2
  | .str => .str (d.d1.setWidth 4) (d.d2.setWidth 4)
  | .psh => .psh (d.d1.setWidth 4)
  | .pop => .pop (d.d1.setWidth 4)
  | .jsr => .jsr d.d1
  | .ret => .ret
  | .bra => .bra (d.d1.setWidth 2) (d.d2.setWidth 2) d.d3
  | .mdf => .mdf (d.d1.setWidth 2) (d.d2.setWidth 2)

/-! ### The host's reading of one table row -/

/-- The instruction word whose bits are `w`, of which the table gives the low `nbits`; the bits above are 0. -/
def tableWord (nbits w : Nat) : Word := BitVec.ofNat 16 (w % 2 ^ nbits)

/-- What the decoder reads from a table row's word. Every row has 16 bits (R50), so a longer one is none of this machine's
instructions; the word's bytes are laid out high byte first (R32). -/
def decodeTableWord (nbits w : Nat) : Option Instr :=
  if nbits ≤ 16 then
    match decodeBytes [hiByte (tableWord nbits w), loByte (tableWord nbits w)] with
    | .ok (i, _) => some i
    | .error _ => none
  else none

end Sys2Proof
end

