-- ==== Sys2Proof/Machine/State.lean ====
section
/-! DEFINITION. The state of the machine (spec/10_state.md R10 to R21), as plain data, and its value after a cold reset.

R21: "There is no other state": no mode, no interrupt bit, no counter, no cache, no reservation, no link register. -/

namespace Sys2Proof.Machine

/-- The cycle state `cs`, `sr[3:2]` (R16): "`00`=Fetch, `01`=Decode, `10`=Execute, `11`=Halt". -/
inductive CycleState where
  | fetch
  | decode
  | execute
  | halt
deriving DecidableEq, Repr

/-- The memory array in canonical form: the cells that hold something other than 0, at strictly rising addresses. A cell
not listed holds 0, its cold-reset value (R10). The form is `Memory.wf` in Sys2Proof/Machine/Ops.lean. -/
abbrev Memory := List Host.Cell

/-- The reasons a step can fault: none. R140: "The machine raises no synchronous exception"; R154: "The model needs no fault
constructor". No step and no meaning can answer `.fault`, since there is no reason to answer it with. Safe: nothing stops. -/
inductive Fault
deriving DecidableEq, Repr

/-- The reasons a step can be refused. R154: "no refusal constructor for any of the 65,536 words or any reachable state". -/
inductive Refusal where
  /-- Raised by an arm of `exec` whose instruction has no meaning yet. No arm raises it: all 16 have theirs. Safe: it stops. -/
  | notModelled (mnemonic : String)
deriving DecidableEq, Repr

/-- ProcessorState. -/
structure State where
  /-- `x[0]` to `x[15]`; `x[15]` is the stack pointer (R11, R12) -/
  regs : Vector Byte 16
  /-- the program counter (R13) -/
  pc : Byte
  /-- the instruction register (R14) -/
  ir : Word
  /-- the cycle state, `sr[3:2]` (R15, R16) -/
  cs : CycleState
  /-- the zero flag, `sr[1]` (R17) -/
  z : Bool
  /-- the carry flag, `sr[0]` (R18); `sr[7:4]` is hardwired 0 and held nowhere (R19) -/
  c : Bool
  /-- the decoded operand fields `d[0..3]` (R20) -/
  d : Scratch
  /-- the memory array `M` (R10) -/
  mem : Memory
deriving DecidableEq, Repr

/-- The state after a cold reset, `create()` (R25, R160): everything zero "except stack pointer = 255 and cycle state =
Fetch". -/
def State.reset : State where
  regs := #v[0, 0, 0, 0, 0, 0, 0, 0, 0, 0, 0, 0, 0, 0, 0, 255]
  pc := 0
  ir := 0
  cs := .fetch
  z := false
  c := false
  d := ⟨0, 0, 0, 0⟩
  mem := []

/-- What one step or one meaning answers. -/
abbrev Result := Host.Outcome State Fault Refusal

end Sys2Proof.Machine
end

