-- ==== Sys2Proof/Machine/Ops.lean ====
section
/-! DEFINITION. The named operations over memory, registers and status that every meaning is written with.

There is no operation here that takes an exception and none that returns from one: the machine has no exception, no
interrupt, no trap entry and no trap return (spec/60_exceptions.md R140, R141, R143, R144). RET is a subroutine return and
restores nothing but `pc`. -/

namespace Sys2Proof.Machine

/-! ### Memory (spec/20_memory.md R30 to R41)

Addresses are `Nat` keys, reached from an 8-bit address by `toNat`, so they are below 256 and every address exists (R31). -/

/-- What a cell that is not listed holds: 0, the cold-reset value of every cell (spec/10_state.md R10, R25). -/
def Memory.unlisted : Byte := 0

/-- `M[a]`. -/
def Memory.read : Memory → Nat → Byte
  | [], _ => Memory.unlisted
  | (k, v) :: m, a => if k = a then v else Memory.read m a

/-- The memory without an entry for `a`. -/
def Memory.erase (m : Memory) (a : Nat) : Memory := m.filter fun e => e.1 != a

/-- The memory with an entry for `a` before the first higher address; `m` is to have no entry for `a`. -/
def Memory.insert : Memory → Nat → Byte → Memory
  | [], a, v => [(a, v)]
  | (k, w) :: m, a, v => if a < k then (a, v) :: (k, w) :: m else (k, w) :: Memory.insert m a v

/-- `M[a] <- v`, in canonical form: writing what an unlisted cell holds removes the entry. -/
def Memory.write (m : Memory) (a : Nat) (v : Byte) : Memory :=
  if v = Memory.unlisted then m.erase a else (m.erase a).insert a v

/-- Strictly rising addresses from `lo` on, all below 256, and no entry equal to what an unlisted cell holds. -/
def Memory.wfFrom : Nat → Memory → Bool
  | _, [] => true
  | lo, (k, v) :: m => decide (lo ≤ k) && decide (k < 256) && decide (v ≠ Memory.unlisted) && Memory.wfFrom (k + 1) m

/-- The canonical form. -/
def Memory.wf (m : Memory) : Bool := Memory.wfFrom 0 m

/-- The memory whose cells from address `a` on hold the bytes of a list (R44: cell `a` takes byte number `a`). -/
def Memory.ofBytesFrom : Nat → List Byte → Memory
  | _, [] => []
  | a, b :: bs => if b = Memory.unlisted then Memory.ofBytesFrom (a + 1) bs else (a, b) :: Memory.ofBytesFrom (a + 1) bs

/-- All 256 cells in address order (R44: "writes exactly 256 bytes", byte `a` being `M[a]`). -/
def Memory.toBytes (m : Memory) : List Byte := (List.range 256).map m.read

/-- `MemRead(a, 1)` (R31): one cell, no side effect (R37). -/
def State.cell (s : State) (a : Byte) : Byte := s.mem.read a.toNat

/-- `MemWrite(a, 1, v)` (R31). -/
def State.setCell (s : State) (a v : Byte) : State := { s with mem := s.mem.write a.toNat v }

/-- `MemRead(a, 2) = {M[a], M[(a + 1) mod 256]}` (R32, R35): the only two-cell read, used by Fetch. -/
def State.wordAt (s : State) (a : Byte) : Word := wordOfBytes (s.cell a) (s.cell (a + 1))

/-- A word placed at `a`: `M[a] = word[15:8]`, `M[a + 1] = word[7:0]` (spec/30_encoding.md R68). -/
def State.placeWord (s : State) (a : Byte) (w : Word) : State := (s.setCell a (hiByte w)).setCell (a + 1) (loByte w)

/-! ### Registers (spec/10_state.md R11, R12): no register is hardwired -/

/-- `x[r]`. -/
def State.reg (s : State) (r : RegIdx) : Byte := s.regs[r.toNat]'(r.isLt)

/-- `x[r] <- v`. -/
def State.setReg (s : State) (r : RegIdx) (v : Byte) : State := { s with regs := s.regs.set r.toNat v r.isLt }

/-- The index of the stack pointer (R12). -/
def spIdx : RegIdx := 15

/-- `sp`, the same storage as `x[15]` (R12). -/
def State.sp (s : State) : Byte := s.reg spIdx

/-- `sp <- v`. -/
def State.setSp (s : State) (v : Byte) : State := s.setReg spIdx v

/-! ### The other state -/

/-- `Z <- b` (R17). -/
def State.setZ (s : State) (b : Bool) : State := { s with z := b }

/-- `C <- b` (R18). -/
def State.setC (s : State) (b : Bool) : State := { s with c := b }

/-- `pc <- a` (R13). -/
def State.setPc (s : State) (a : Byte) : State := { s with pc := a }

/-- `cs <- k` (R16). -/
def State.setCs (s : State) (k : CycleState) : State := { s with cs := k }

/-- `ir <- w` (R14). -/
def State.setIr (s : State) (w : Word) : State := { s with ir := w }

/-- `d[0..3] <- d` (R20). -/
def State.setScratch (s : State) (d : Scratch) : State := { s with d := d }

/-! ### The ends of an Execute sub-step (spec/40_cycle_engine.md R74, R75) -/

/-- The end of every instruction that did not write `pc`: the epilogue `pc <- (pc + 2) mod 256`, then Fetch. -/
def State.retire (s : State) : Result := .next ((s.setPc (s.pc + 2)).setCs .fetch)

/-- The end of a control transfer (spec/44_control_transfer.md R123): `pc <- target` exactly, no epilogue, then Fetch. -/
def State.transfer (s : State) (target : Byte) : Result := .next ((s.setPc target).setCs .fetch)

/-! ### Shapes shared by several instructions -/

/-- `x[r] <- v` and Z from the value written (ADC, AND, XOR, LDI, LDM, LDR, POP; R17). -/
def State.result (s : State) (r : RegIdx) (v : Byte) : State := (s.setReg r v).setZ (decide (v = 0))

/-- `M[a] <- v` and Z from the value stored (STO, STR; R17). -/
def State.store (s : State) (a v : Byte) : State := (s.setCell a v).setZ (decide (v = 0))

/-- Push a byte (spec/43_stack.md R112): write at `sp`, then decrement, modulo 256. -/
def State.push (s : State) (v : Byte) : State := (s.setCell s.sp v).setSp (s.sp - 1)

/-- The stack pointer's move of a pop (R112): increment, modulo 256. The popped byte is then the cell at `sp`. -/
def State.pop (s : State) : State := s.setSp (s.sp + 1)

/-! ### Outcomes in sequence -/

/-- Go on from a next state; a fault or a refusal ends the sequence. -/
def andThen (r : Result) (f : State → Result) : Result :=
  match r with
  | .next s => f s
  | .fault e => .fault e
  | .refused e => .refused e

end Sys2Proof.Machine
end

