-- ==== Sys2Proof/Machine/Flags.lean ====
section
/-! DEFINITION. The arithmetic that makes results and flags: the sum of ADC, the nine-bit ring of ROT, the flag test of BRA, the
flag write of MDF, and the status byte (spec/41_arith_logic.md, spec/44_control_transfer.md R122, spec/45_system.md R131,
spec/10_state.md R15). -/

namespace Sys2Proof.Machine

/-- `t <- x[S] + x[T] + C` over the unbounded integers (R90): at most 511. -/
def adcSum (x y : Byte) (c : Bool) : Nat := x.toNat + y.toNat + c.toNat

/-- `t mod 256` (R90). -/
def adcResult (x y : Byte) (c : Bool) : Byte := BitVec.ofNat 8 (adcSum x y c)

/-- `bool(t > 255)` (R90). -/
def adcCarry (x y : Byte) (c : Bool) : Bool := decide (adcSum x y c > 255)

/-- `rotl9(r, n) = ((r << n) | (r >> (9 - n))) mod 512` (R94). -/
def rotl9 (r : Ring) (n : Nat) : Ring := (r <<< n) ||| (r >>> (9 - n))

/-- `rotr9(r, n) = ((r >> n) | (r << (9 - n))) mod 512` (R94). -/
def rotr9 (r : Ring) (n : Nat) : Ring := (r >>> n) ||| (r <<< (9 - n))

/-- The ring `{C, x[S]}`: the carry is bit 8 (R94; decision D13, log 8). -/
def ringOf (c : Bool) (v : Byte) : Ring := BitVec.ofNat 9 (c.toNat * 256 + v.toNat)

/-- `ring[7:0]` (R93). -/
def ringByte (r : Ring) : Byte := r.extractLsb' 0 8

/-- `ring[8]` (R93). -/
def ringCarry (r : Ring) : Bool := r.getLsbD 8

/-- The ring after a rotation by `n` in the given direction (R93). -/
def rotate (right : Bool) (n : Nat) (r : Ring) : Ring := if right then rotr9 r n else rotl9 r n

/-- `{Z, C}`, that is `sr[1:0]` (R122). -/
def flagPair (z c : Bool) : FlagPair := BitVec.ofNat 2 (z.toNat * 2 + c.toNat)

/-- BRA's test (R122): `(select & (cur ^ state)) == 0`. -/
def branchTaken (select want : FlagPair) (z c : Bool) : Bool := decide (select &&& (flagPair z c ^^^ want) = 0)

/-- MDF's new Z (R131): `state[1]` if `select[1] = 1`, else unchanged. -/
def mdfZ (select want : FlagPair) (z : Bool) : Bool := if select.getLsbD 1 then want.getLsbD 1 else z

/-- MDF's new C (R131): `state[0]` if `select[0] = 1`, else unchanged. -/
def mdfC (select want : FlagPair) (c : Bool) : Bool := if select.getLsbD 0 then want.getLsbD 0 else c

/-- The code of a cycle state in `sr[3:2]` (R16). -/
def CycleState.code : CycleState → FlagPair
  | .fetch => 0
  | .decode => 1
  | .execute => 2
  | .halt => 3

/-- The cycle state a code stands for (R16: "the field has no illegal value"). -/
def CycleState.ofCode (k : FlagPair) : CycleState :=
  match k with
  | 0#2 => .fetch
  | 1#2 => .decode
  | 2#2 => .execute
  | _ => .halt

/-- `sr = {0000, cs, Z, C}` (R15, R19: bits 7 to 4 are hardwired 0, decision D6, log 9). -/
def State.sr (s : State) : Byte := BitVec.ofNat 8 (s.cs.code.toNat * 4 + s.z.toNat * 2 + s.c.toNat)

end Sys2Proof.Machine
end

