-- ==== Sys2Proof/Machine/Operands.lean ====
section
/-! DEFINITION. How an operand is found (spec/42_load_store.md R105, spec/43_stack.md R112): immediate, absolute, register
indirect, and the two stack addresses. "There is no displacement, no index, no scaling, and no pre- or
post-modification of the address register." The control value of ROT (spec/30_encoding.md R69) stands here too. -/

namespace Sys2Proof.Machine

/-- Absolute: `EA = addr` (LDM, STO). -/
def eaAbsolute (addr : Byte) : Byte := addr

/-- Register indirect: `EA = x[S]` (LDR, STR). -/
def eaIndirect (s : State) (a : RegIdx) : Byte := s.reg a

/-- Where a push writes: `sp` before the decrement (PSH, JSR; spec/20_memory.md R30). -/
def eaPush (s : State) : Byte := s.sp

/-- Where a pop reads: `sp` after the increment (POP, RET; R30). -/
def eaPop (s : State) : Byte := s.pop.sp

/-- The control nibble of ROT (R69, R93): the T field itself, or under the alternative the low four bits of `x[T]`. -/
def rotControl (src : RotCtrlSource) (s : State) (t : Nibble) : Nibble :=
  match src with
  | .field => t
  | .register => (s.reg t).setWidth 4

/-- The rotate count, `T & 0x7` (R69). -/
def rotCount (ctl : Nibble) : Nat := ctl.toNat % 8

/-- The rotate direction, bit 3: 0 left, 1 right (R69; spec/90_conflicts.md C5). -/
def rotRight (ctl : Nibble) : Bool := ctl.getLsbD 3

/-- The address JSR pushes, `(pc + 2) mod 256` (spec/44_control_transfer.md R120). -/
def returnAddress (s : State) : Byte := s.pc + 2

end Sys2Proof.Machine
end

