-- ==== Sys2Proof/Machine/Params.lean ====
section
/-! DEFINITION. The parameter values the machine `Sys2Proof.core` runs with: the spec's defaults (spec/00_scope.md R5). -/

namespace Sys2Proof.Machine

/-- The parameters of `exec` and `step`: `HLT_PC_ADVANCE = 2` (log 3), `ROT_CTRL_SOURCE = field` (log 4),
`WARM_RESET_CLEARS_SCRATCH = false` (log 5). -/
def params : Config := Config.specDefault

end Sys2Proof.Machine
end

