-- ==== Sys2Proof/Machine/ArithLogic.lean ====
section
/-! DEFINITION. ADC, AND, XOR and ROT (spec/41_arith_logic.md R90 to R95). Sources are read before the destination is written. -/

namespace Sys2Proof.Machine

/-- ADC R,S,T (R90). -/
def execAdc (r a b : RegIdx) (s : State) : Result :=
  ((s.result r (adcResult (s.reg a) (s.reg b) s.c)).setC (adcCarry (s.reg a) (s.reg b) s.c)).retire

/-- AND R,S,T (R91). -/
def execAnd (r a b : RegIdx) (s : State) : Result := (s.result r (s.reg a &&& s.reg b)).retire

/-- XOR R,S,T (R92). -/
def execXor (r a b : RegIdx) (s : State) : Result := (s.result r (s.reg a ^^^ s.reg b)).retire

/-- The effect of ROT on registers and flags for the control nibble `ctl` (R93). With count 0 nothing changes. Otherwise Z comes
from the value `x[R]` had before the instruction, which R93 keeps on purpose (spec/93_implementation_defined.md U1). -/
def rotEffect (ctl : Nibble) (r a : RegIdx) (s : State) : State :=
  if rotCount ctl = 0 then s
  else
    let ring := rotate (rotRight ctl) (rotCount ctl) (ringOf s.c (s.reg a))
    ((s.setReg r (ringByte ring)).setC (ringCarry ring)).setZ (decide (s.reg r = 0))

/-- ROT R,S,T under any parameters (R93; D3). -/
def execRotWith (cfg : Config) (r a : RegIdx) (t : Nibble) (s : State) : Result :=
  (rotEffect (rotControl cfg.rotCtrlSource s t) r a s).retire

/-- ROT R,S,T (R93) under the machine's parameters. -/
def execRot (r a : RegIdx) (t : Nibble) (s : State) : Result := execRotWith params r a t s

end Sys2Proof.Machine
end

