-- ==== Sys2Proof/Machine/Control.lean ====
section
/-! DEFINITION. JSR, RET and BRA (spec/44_control_transfer.md R120 to R123). A control transfer writes its target exactly and
skips the epilogue (spec/90_conflicts.md C1). -/

namespace Sys2Proof.Machine

/-- JSR target (R120). -/
def execJsr (target : Byte) (s : State) : Result := (s.push (returnAddress s)).transfer target

/-- RET (R121): no flag changes. -/
def execRet (s : State) : Result := s.pop.transfer (s.cell (eaPop s))

/-- BRA select,state,target (R122): the target if taken, else the epilogue. -/
def execBra (select want : FlagPair) (target : Byte) (s : State) : Result :=
  if branchTaken select want s.z s.c then s.transfer target else s.retire

end Sys2Proof.Machine
end

