-- ==== Sys2Proof/Machine/LoadStore.lean ====
section
/-! DEFINITION. LDI, LDM, LDR, STO and STR (spec/42_load_store.md R100 to R105). -/

namespace Sys2Proof.Machine

/-- LDI R,imm (R100). -/
def execLdi (r : RegIdx) (imm : Byte) (s : State) : Result := (s.result r imm).retire

/-- LDM R,addr (R101). -/
def execLdm (r : RegIdx) (addr : Byte) (s : State) : Result := (s.result r (s.cell (eaAbsolute addr))).retire

/-- LDR R,S (R102): the address is read before the register is written. -/
def execLdr (r a : RegIdx) (s : State) : Result := (s.result r (s.cell (eaIndirect s a))).retire

/-- STO R,addr (R103): Z from the value stored. -/
def execSto (r : RegIdx) (addr : Byte) (s : State) : Result := (s.store (eaAbsolute addr) (s.reg r)).retire

/-- STR R,S (R104): Z from the value stored. -/
def execStr (r a : RegIdx) (s : State) : Result := (s.store (eaIndirect s a) (s.reg r)).retire

end Sys2Proof.Machine
end

