-- ==== Sys2Proof/Machine/Stack.lean ====
section
/-! DEFINITION. PSH and POP (spec/43_stack.md R110 to R112). -/

namespace Sys2Proof.Machine

/-- PSH R (R110): the value is read before `sp` moves, so PSH R15 stores the old `sp`. No flag changes. -/
def execPsh (r : RegIdx) (s : State) : Result := (s.push (s.reg r)).retire

/-- POP R (R111): `sp` moves first, then `x[R]` is written, so POP R15 leaves the popped byte in `sp`. -/
def execPop (r : RegIdx) (s : State) : Result := (s.pop.result r (s.cell (eaPop s))).retire

end Sys2Proof.Machine
end

