-- ==== Sys2Proof/Machine/System.lean ====
section
/-! DEFINITION. HLT and MDF (spec/45_system.md R130, R131). -/

namespace Sys2Proof.Machine

/-- HLT under any parameters (R130): `pc <- (pc + HLT_PC_ADVANCE) mod 256`, then Halt. -/
def execHltWith (cfg : Config) (s : State) : Result :=
  .next ((s.setPc (s.pc + cfg.hltPcAdvance.amount)).setCs .halt)

/-- HLT (R130) under the machine's parameters. -/
def execHlt (s : State) : Result := execHltWith params s

/-- MDF select,state (R131). -/
def execMdf (select want : FlagPair) (s : State) : Result :=
  ((s.setZ (mdfZ select want s.z)).setC (mdfC select want s.c)).retire

end Sys2Proof.Machine
end

