-- ==== Sys2Proof/Machine/Cycle.lean ====
section
/-! DEFINITION. The cycle engine (spec/40_cycle_engine.md R70 to R76): the Fetch and Decode sub-steps, and the sub-step dispatch
over an Execute. `step` (Sys2Proof/Machine/Step.lean) is this dispatch over `exec`; `subStepWith` is it under any parameters. -/

namespace Sys2Proof.Machine

/-- The word Fetch reads: `{M[pc], M[(pc + 1) mod 256]}` (R72). -/
def fetchWord (s : State) : Word := s.wordAt s.pc

/-- The Fetch sub-step (R72). -/
def fetchPhase (s : State) : State := (s.setIr (fetchWord s)).setCs .decode

/-- The Decode sub-step (R73): the four scratch fields are cleared, then the opcode and the operand fields of `ir` written. -/
def decodePhase (s : State) : State := (s.setScratch (scratchOf (decodeWord s.ir))).setCs .execute

/-- The instruction an Execute sub-step runs: what `d[0..3]` hold, not what `ir` or memory hold (R74). -/
def pendingInstr (s : State) : Instr := instrOfScratch s.d

/-- `sub_step` (R71) over an Execute: the action of the current cycle state; nothing in Halt (R76). -/
def subStepOver (execute : Instr → State → Result) (s : State) : Result :=
  match s.cs with
  | .fetch => .next (fetchPhase s)
  | .decode => .next (decodePhase s)
  | .execute => execute (pendingInstr s) s
  | .halt => .next s

/-- Execute under any parameters (R5): only HLT (D2) and ROT (D3) read one. -/
def execWith (cfg : Config) (i : Instr) (s : State) : Result :=
  match i with
  | .hlt => execHltWith cfg s
  | .adc r a b => execAdc r a b s
  | .and r a b => execAnd r a b s
  | .xor r a b => execXor r a b s
  | .rot r a ctl => execRotWith cfg r a ctl s
  | .ldi r imm => execLdi r imm s
  | .ldm r addr => execLdm r addr s
  | .ldr r a => execLdr r a s
  | .sto r addr => execSto r addr s
  | .str r a => execStr r a s
  | .psh r => execPsh r s
  | .pop r => execPop r s
  | .jsr target => execJsr target s
  | .ret => execRet s
  | .bra select want target => execBra select want target s
  | .mdf select want => execMdf select want s

/-- `sub_step` under any parameters. -/
def subStepWith (cfg : Config) (s : State) : Result := subStepOver (execWith cfg) s

/-- The state in which the next sub-step executes `w` as the instruction at `pc`: `w` is placed in memory at `pc`, and the
Fetch and Decode sub-steps of a cycle begun there have run. -/
def readyToExecute (s : State) (w : Word) : State := decodePhase (fetchPhase ((s.placeWord s.pc w).setCs .fetch))

end Sys2Proof.Machine
end

