-- ==== Sys2Proof/Machine/Dispatch.lean ====
section
/-! DEFINITION. One arm per instruction: the whole Execute sub-step of that instruction, its end included
(spec/40_cycle_engine.md R74). -/

namespace Sys2Proof.Machine

def exec (i : Instr) (s : State) : Host.Outcome State Fault Refusal :=
  match i with
  | .hlt => Sys2Proof.Machine.execHlt s
  | .adc r a b => Sys2Proof.Machine.execAdc r a b s
  | .and r a b => Sys2Proof.Machine.execAnd r a b s
  | .xor r a b => Sys2Proof.Machine.execXor r a b s
  | .rot r a ctl => Sys2Proof.Machine.execRot r a ctl s
  | .ldi r imm => Sys2Proof.Machine.execLdi r imm s
  | .ldm r addr => Sys2Proof.Machine.execLdm r addr s
  | .ldr r a => Sys2Proof.Machine.execLdr r a s
  | .sto r addr => Sys2Proof.Machine.execSto r addr s
  | .str r a => Sys2Proof.Machine.execStr r a s
  | .psh r => Sys2Proof.Machine.execPsh r s
  | .pop r => Sys2Proof.Machine.execPop r s
  | .jsr target => Sys2Proof.Machine.execJsr target s
  | .ret => Sys2Proof.Machine.execRet s
  | .bra select want target => Sys2Proof.Machine.execBra select want target s
  | .mdf select want => Sys2Proof.Machine.execMdf select want s

end Sys2Proof.Machine
end

