-- ==== Sys2Proof/Machine/Step.lean ====
section
/-! DEFINITION. The machine's atomic step is one `sub_step` (spec/40_cycle_engine.md R71; decision D1, log 1). -/

namespace Sys2Proof.Machine

/-- One `sub_step`. -/
def step (s : State) : Host.Outcome State Fault Refusal := subStepOver exec s

/-- `s` with the table's word placed where the next instruction is fetched, at `pc`, and carried through its Fetch and Decode
sub-steps, so that the very next step is its Execute (logs 1 and 2). -/
def State.withFetchWord (s : State) (nbits w : Nat) : State := readyToExecute s (tableWord nbits w)

end Sys2Proof.Machine
end

