-- ==== Sys2Proof/Machine/HostOps.lean ====
section
/-! DEFINITION. The host's operations (spec/60_exceptions.md R147): what the outside can do to the machine, between sub-steps
only and in any cycle state (decision D17, log 15). They are no instructions. `create()` is `State.reset`. Every operation that
reads a parameter takes the `Config`.

The stepping operations are runs of `sub_step` and reach no state of their own (spec/40_cycle_engine.md R77, R78). -/

namespace Sys2Proof.Machine

/-! ### Resets and the memory clear (spec/70_reset_and_hazards.md R160 to R163) -/

/-- `reset_registers()`, the warm reset (R161, spec/10_state.md R27): memory stays, and `d[0..3]` stay unless
`WARM_RESET_CLEARS_SCRATCH` (D5). It acts in every cycle state, Halt included (R29, R163). -/
def warmReset (cfg : Config) (s : State) : State :=
  { State.reset with
    mem := s.mem
    d := if cfg.warmResetClearsScratch then State.reset.d else s.d }

/-- `clear_memory()` (R28, R162): all 256 cells 0, nothing else. -/
def clearMemory (s : State) : State := { s with mem := [] }

/-! ### The memory image (spec/20_memory.md R44; spec/60_exceptions.md R152) -/

/-- The boundary's errors (R152): results to the host, not machine events. -/
inductive IoError where
  | notFound
  | unreadable
  | unwritable
  | shortInput
deriving DecidableEq, Repr

/-- What a load finds at its source. -/
inductive ImageSource where
  | missing
  | unreadable
  | bytes (bs : List Byte)
deriving DecidableEq, Repr

/-- What a save finds at its sink. -/
inductive ImageSink where
  | writable
  | unwritable
deriving DecidableEq, Repr

/-- The bytes in an image (R38: "exactly 256 raw bytes, no header"). -/
def imageSize : Nat := 256

/-- `load_memory` (R44): cell `a` takes byte number `a` of the source. A failed load answers its error; what it leaves of the
machine is `afterFailedLoad`. -/
def loadMemory (src : ImageSource) (s : State) : Except IoError State :=
  match src with
  | .missing => .error .notFound
  | .unreadable => .error .unreadable
  | .bytes bs =>
    if bs.length < imageSize then .error .shortInput
    else .ok { s with mem := Memory.ofBytesFrom 0 (bs.take imageSize) }

/-- The machine after a load that failed. A source that is missing or cannot be read sets no state (R152). After one that is too
short the array holds free values, since nothing is stated of it (spec/93_implementation_defined.md U3; D10, log 10). -/
def afterFailedLoad (src : ImageSource) (s : State) : State :=
  match src with
  | .missing => s
  | .unreadable => s
  | .bytes bs =>
    { s with mem := Memory.ofBytesFrom 0 ((List.range imageSize).map (Config.cellAfterShortLoad bs s.mem)) }

/-- `save_memory` (R44): byte `a` is `M[a]`; the machine is not changed. -/
def saveMemory (sink : ImageSink) (s : State) : Except IoError (List Byte) :=
  match sink with
  | .writable => .ok s.mem.toBytes
  | .unwritable => .error .unwritable

/-- The launch state (R45): a cold reset, then a load. From a failed load nothing is launched (D10). -/
def launch (src : ImageSource) : Except IoError State := loadMemory src State.reset

/-! ### Stepping (spec/40_cycle_engine.md R77 to R79) -/

/-- Sub-steps up to and including the first Execute, at most `fuel` of them. -/
def untilExecuted (sub : State → Result) : Nat → State → Result
  | 0, s => .next s
  | fuel + 1, s =>
    andThen (sub s) fun t => if s.cs = .execute then .next t else untilExecuted sub fuel t

/-- `full_step` (R77; decision D7, log 11): nothing in Halt, else sub-steps through the first Execute; three always suffice. -/
def fullStep (cfg : Config) (s : State) : Result :=
  if s.cs = .halt then .next s else untilExecuted (subStepWith cfg) 3 s

/-- A loop "until cycle state becomes `Halt`" (R78) under fuel (D14, log 14): `none` is a run that has not halted when the fuel is
spent, a hang as far as this fuel shows, and no error. -/
def runUntilHalt (go : State → Result) : Nat → State → Option State
  | 0, s => if s.cs = .halt then some s else none
  | fuel + 1, s =>
    if s.cs = .halt then some s
    else
      match go s with
      | .next t => runUntilHalt go fuel t
      | .fault _ => none
      | .refused _ => none

/-- `run_part(delay_hint)` (R78): `sub_step` until Halt; the hint has no effect (R79). -/
def runPart (cfg : Config) (_delayHint fuel : Nat) (s : State) : Option State := runUntilHalt (subStepWith cfg) fuel s

/-- `run_full(delay_hint)` (R78): `full_step` until Halt; the hint has no effect (R79). -/
def runFull (cfg : Config) (_delayHint fuel : Nat) (s : State) : Option State := runUntilHalt (fullStep cfg) fuel s

/-! ### Read accessors and poke (R149, R150) -/

/-- What the host can read or poke. -/
inductive Place where
  | reg (r : RegIdx)
  | cell (a : Byte)
  | pc
  | ir
  | sr
  | scratch (k : FlagPair)
deriving DecidableEq, Repr

/-- `d[k]`. -/
def scratchField (d : Scratch) (k : FlagPair) : Byte :=
  match k with
  | 0#2 => d.d0
  | 1#2 => d.d1
  | 2#2 => d.d2
  | _ => d.d3

/-- `d[k] <- v`. -/
def setScratchField (d : Scratch) (k : FlagPair) (v : Byte) : Scratch :=
  match k with
  | 0#2 => { d with d0 := v }
  | 1#2 => { d with d1 := v }
  | 2#2 => { d with d2 := v }
  | _ => { d with d3 := v }

/-- A read accessor (R149): it changes nothing. -/
def accessor (s : State) (p : Place) : Nat :=
  match p with
  | .reg r => (s.reg r).toNat
  | .cell a => (s.cell a).toNat
  | .pc => s.pc.toNat
  | .ir => s.ir.toNat
  | .sr => s.sr.toNat
  | .scratch k => (scratchField s.d k).toNat

/-- Poke (R150; decision D9, log 12): no step and no part of the cycle-engine contract, a host move between sub-steps that
reduces the value to the width of its target. Bits 7 to 4 of the status register are hardwired 0 (R19), so a poke of it sets
the cycle state and the two flags only. -/
def poke (p : Place) (v : Nat) (s : State) : State :=
  match p with
  | .reg r => s.setReg r (BitVec.ofNat 8 v)
  | .cell a => s.setCell a (BitVec.ofNat 8 v)
  | .pc => s.setPc (BitVec.ofNat 8 v)
  | .ir => s.setIr (BitVec.ofNat 16 v)
  | .sr => ((s.setCs (CycleState.ofCode (BitVec.ofNat 2 (v / 4)))).setZ (v.testBit 1)).setC (v.testBit 0)
  | .scratch k => s.setScratch (setScratchField s.d k (BitVec.ofNat 8 v))

/-! ### The table of operations (R147) -/

/-- The operations of R147's table, in its order. `fuel` bounds a run (D14) and is no argument of the source's operation. -/
inductive HostOp where
  | create
  | resetRegisters
  | clearMemory
  | loadMemory (src : ImageSource)
  | saveMemory (sink : ImageSink)
  | subStep
  | fullStep
  | runPart (delayHint fuel : Nat)
  | runFull (delayHint fuel : Nat)
  | read (p : Place)
  | poke (p : Place) (v : Nat)
deriving DecidableEq, Repr

/-- What an operation tells the host. -/
inductive HostReply where
  /-- it is done and returns nothing -/
  | done
  /-- the 256 bytes of a save -/
  | image (bs : List Byte)
  /-- the value of a read accessor -/
  | value (n : Nat)
  /-- one of the boundary's errors -/
  | failed (e : IoError)
  /-- a run that had not halted when its fuel was spent -/
  | unfinished
deriving DecidableEq, Repr

/-- The state an outcome goes on with. -/
def nextState (r : Result) : Option State :=
  match r with
  | .next s => some s
  | .fault _ => none
  | .refused _ => none

/-- One operation of the host: its reply, and the machine it leaves. `none` is a run still going when its fuel was spent. -/
def hostCall (cfg : Config) (op : HostOp) (s : State) : HostReply × Option State :=
  match op with
  | .create => (.done, some State.reset)
  | .resetRegisters => (.done, some (warmReset cfg s))
  | .clearMemory => (.done, some (clearMemory s))
  | .loadMemory src =>
    match loadMemory src s with
    | .ok t => (.done, some t)
    | .error e => (.failed e, some (afterFailedLoad src s))
  | .saveMemory sink =>
    match saveMemory sink s with
    | .ok bs => (.image bs, some s)
    | .error e => (.failed e, some s)
  | .subStep => (.done, nextState (subStepWith cfg s))
  | .fullStep => (.done, nextState (fullStep cfg s))
  | .runPart h fuel =>
    match runPart cfg h fuel s with
    | some t => (.done, some t)
    | none => (.unfinished, none)
  | .runFull h fuel =>
    match runFull cfg h fuel s with
    | some t => (.done, some t)
    | none => (.unfinished, none)
  | .read p => (.value (accessor s p), some s)
  | .poke p v => (.done, some (poke p v s))

end Sys2Proof.Machine
end

