-- ==== Sys2Proof/Machine/Pseudocode.lean ====
section
/-! DEFINITION. "The whole sub-step in one place": the pseudocode of spec/40_cycle_engine.md section 7, transcribed over unbounded
natural numbers as it is written there (spec/00_scope.md R8: `+` and `-` are over the unbounded integers and every assignment
names the width it reduces to), with numbers 0 and 1 for flags and functions for arrays. It is a second, independent
reading of the spec and no part of the machine; a statement says the machine refines it. -/

namespace Sys2Proof.Machine

/-- The names of state in the pseudocode (R7's table). -/
structure PState where
  x : Nat → Nat
  pc : Nat
  ir : Nat
  cs : CycleState
  z : Nat
  c : Nat
  d : Nat → Nat
  M : Nat → Nat

/-- `v[hi:lo]` (R7). -/
def bits (v hi lo : Nat) : Nat := v / 2 ^ lo % 2 ^ (hi - lo + 1)

/-- `bool(e)` (R8's list of primitives). -/
def bool01 (p : Bool) : Nat := if p then 1 else 0

/-- An array with element `i` replaced. -/
def put (f : Nat → Nat) (i v : Nat) : Nat → Nat := fun j => if j = i then v else f j

/-- The Fetch branch. -/
def PState.fetch (p : PState) : PState :=
  { p with ir := p.M p.pc * 256 + p.M ((p.pc + 1) % 256), cs := .decode }

/-- The Decode branch. -/
def PState.decode (p : PState) : PState :=
  let op := bits p.ir 15 12
  let d1 :=
    if op ∈ [1, 2, 3, 4, 5, 6, 8, 10, 11] then bits p.ir 11 8
    else if op ∈ [7, 9] then bits p.ir 7 4
    else if op = 12 then bits p.ir 7 0
    else if op ∈ [14, 15] then bits p.ir 11 10
    else 0
  let d2 :=
    if op ∈ [1, 2, 3, 4] then bits p.ir 7 4
    else if op ∈ [5, 6, 8] then bits p.ir 7 0
    else if op ∈ [7, 9] then bits p.ir 3 0
    else if op ∈ [14, 15] then bits p.ir 9 8
    else 0
  let d3 :=
    if op ∈ [1, 2, 3, 4] then bits p.ir 3 0
    else if op = 14 then bits p.ir 7 0
    else 0
  { p with d := put (put (put (put p.d 0 op) 1 d1) 2 d2) 3 d3, cs := .execute }

/-- `rotl9` over numbers (R94). -/
def rotl9N (r n : Nat) : Nat := ((r <<< n) ||| (r >>> (9 - n))) % 512

/-- `rotr9` over numbers (R94). -/
def rotr9N (r n : Nat) : Nat := ((r >>> n) ||| (r <<< (9 - n))) % 512

/-- Row 4 of the Execute branch (ROT), for the control value `t`. -/
def PState.rot (p : PState) (t : Nat) : PState :=
  let n := bits t 2 0
  if n ≠ 0 then
    let old := p.x (p.d 1)
    let ring := p.c * 256 + p.x (p.d 2)
    let ring' := if bits t 3 3 = 1 then rotr9N ring n else rotl9N ring n
    { p with x := put p.x (p.d 1) (bits ring' 7 0), c := bits ring' 8 8, z := bool01 (old == 0) }
  else p

/-- The `case d[0]` of the Execute branch: the state after the instruction's body, and `adv`. -/
def PState.body (cfg : Config) (p : PState) : PState × Bool :=
  let d1 := p.d 1
  let d2 := p.d 2
  let d3 := p.d 3
  match p.d 0 with
  | 0 => ({ p with cs := .halt }, cfg.hltPcAdvance == .two)
  | 1 =>
    let t := p.x d2 + p.x d3 + p.c
    ({ p with x := put p.x d1 (t % 256), z := bool01 (t % 256 == 0), c := bool01 (decide (t > 255)) }, true)
  | 2 => let v := p.x d2 &&& p.x d3; ({ p with x := put p.x d1 v, z := bool01 (v == 0) }, true)
  | 3 => let v := p.x d2 ^^^ p.x d3; ({ p with x := put p.x d1 v, z := bool01 (v == 0) }, true)
  | 4 => (p.rot (match cfg.rotCtrlSource with | .field => d3 | .register => bits (p.x d3) 3 0), true)
  | 5 => ({ p with x := put p.x d1 d2, z := bool01 (d2 == 0) }, true)
  | 6 => let v := p.M d2; ({ p with x := put p.x d1 v, z := bool01 (v == 0) }, true)
  | 7 => let v := p.M (p.x d2); ({ p with x := put p.x d1 v, z := bool01 (v == 0) }, true)
  | 8 => ({ p with M := put p.M d2 (p.x d1), z := bool01 (p.x d1 == 0) }, true)
  | 9 => ({ p with M := put p.M (p.x d2) (p.x d1), z := bool01 (p.x d1 == 0) }, true)
  | 10 => ({ p with M := put p.M (p.x 15) (p.x d1), x := put p.x 15 ((p.x 15 + 255) % 256) }, true)
  | 11 =>
    let sp := (p.x 15 + 1) % 256
    let v := p.M sp
    ({ p with x := put (put p.x 15 sp) d1 v, z := bool01 (v == 0) }, true)
  | 12 =>
    ({ p with
        M := put p.M (p.x 15) ((p.pc + 2) % 256)
        x := put p.x 15 ((p.x 15 + 255) % 256)
        pc := d1 }, false)
  | 13 => let sp := (p.x 15 + 1) % 256; ({ p with x := put p.x 15 sp, pc := p.M sp }, false)
  | 14 => if d1 &&& ((p.z * 2 + p.c) ^^^ d2) = 0 then ({ p with pc := d3 }, false) else (p, true)
  | 15 =>
    ({ p with
        z := if bits d1 1 1 = 1 then bits d2 1 1 else p.z
        c := if bits d1 0 0 = 1 then bits d2 0 0 else p.c }, true)
  | _ => (p, true)

/-- The Execute branch: the body, then `if adv: pc <- (pc + 2) mod 256`, then `if cs != Halt: cs <- Fetch`. -/
def PState.execute (cfg : Config) (p : PState) : PState :=
  let q := (p.body cfg).1
  let q := if (p.body cfg).2 then { q with pc := (q.pc + 2) % 256 } else q
  if q.cs = .halt then q else { q with cs := .fetch }

/-- `sub_step()`. -/
def PState.subStep (cfg : Config) (p : PState) : PState :=
  match p.cs with
  | .halt => p
  | .fetch => p.fetch
  | .decode => p.decode
  | .execute => p.execute cfg

/-- The machine's state under the pseudocode's names. -/
def State.view (s : State) : PState where
  x i := if i < 16 then (s.reg (BitVec.ofNat 4 i)).toNat else 0
  pc := s.pc.toNat
  ir := s.ir.toNat
  cs := s.cs
  z := s.z.toNat
  c := s.c.toNat
  d k :=
    match k with
    | 0 => s.d.d0.toNat
    | 1 => s.d.d1.toNat
    | 2 => s.d.d2.toNat
    | 3 => s.d.d3.toNat
    | _ => 0
  M a := (s.mem.read a).toNat

end Sys2Proof.Machine
end

