-- ==== Sys2Proof/Safety.lean ====
section
/-! DEFINITION. What the statements are about: the invariants of spec/10_state.md R23, runs, safe runs, the whole of a state as the
host's accessors show it, and the spec's tables of what an instruction may change. -/

namespace Sys2Proof.Machine

/-! ### Invariants (R23) -/

/-- The memory is in canonical form: rising addresses below 256, no listed zero. -/
abbrev State.MemCanonical (s : State) : Prop := s.mem.wf = true

/-- R23: in Execute `d[0..3]` hold the fields of `ir`; in Halt the last instruction was HLT, whose word `ir` and whose fields
`d[0..3]` still hold (R76). -/
abbrev State.ScratchCoherent (s : State) : Prop :=
  (s.cs = .execute → s.d = scratchOf (decodeWord s.ir)) ∧
  (s.cs = .halt → decodeWord s.ir = .hlt ∧ s.d = scratchOf .hlt)

/-- R23: after Fetch and until its Execute, `ir` holds the two bytes at `pc` and `pc + 1` (nothing but a host that writes
memory in the middle of a cycle can part them). -/
abbrev State.FetchCoherent (s : State) : Prop := s.cs = .decode ∨ s.cs = .execute → s.ir = fetchWord s

/-- The invariant every step keeps. -/
structure State.Inv (s : State) : Prop where
  memCanonical : s.MemCanonical
  scratchCoherent : s.ScratchCoherent
  fetchCoherent : s.FetchCoherent

/-! ### Runs -/

/-- The states of a launched run (spec/20_memory.md R45): a cold reset and a load of a 256-byte image, then steps. A zero
image is the bare cold reset. -/
inductive Reachable : State → Prop where
  | launch {src : ImageSource} {s : State} : Machine.launch src = .ok s → Reachable s
  | step {s t : State} : Reachable s → Machine.step s = .next t → Reachable t

/-- `n` steps, stopping at the first fault or refusal: the host's `Core.run` of this machine (`core_run_eq_runSteps`). -/
def runSteps : Nat → State → Result
  | 0, s => .next s
  | n + 1, s => andThen (step s) (runSteps n)

/-- A safe run: it never ends in a fault or a refusal, however long it goes on (spec/60_exceptions.md R140, R154). -/
def SafeRun (s : State) : Prop := ∀ n, ∃ t, runSteps n s = .next t

/-! ### A state as the accessors show it (spec/60_exceptions.md R149) -/

/-- Every piece of state of `t`, one by one: each register, each memory cell, the flags, `pc`, `cs`, `ir` and `d[0..3]`. -/
structure State.Shows (t : State) (regs : RegIdx → Byte) (mem : Byte → Byte) (z c : Bool) (pc : Byte) (cs : CycleState)
    (ir : Word) (d : Scratch) : Prop where
  regs : ∀ q, t.reg q = regs q
  mem : ∀ a, t.cell a = mem a
  z : t.z = z
  c : t.c = c
  pc : t.pc = pc
  cs : t.cs = cs
  ir : t.ir = ir
  d : t.d = d

/-! ### What an instruction may change -/

/-- The one address an instruction writes, if it writes memory (the table of R30). -/
def storeAddress (s : State) : Instr → Option Byte
  | .sto _ addr => some addr
  | .str _ a => some (s.reg a)
  | .psh _ => some (s.reg 15)
  | .jsr _ => some (s.reg 15)
  | .hlt | .adc _ _ _ | .and _ _ _ | .xor _ _ _ | .rot _ _ _ | .ldi _ _ | .ldm _ _ | .ldr _ _ | .pop _ | .ret
  | .bra _ _ _ | .mdf _ _ => none

/-- None of the next `n` steps from a state stores to `a`: no Execute among them is of an instruction that writes that cell. -/
def NoStoreTo (a : Byte) : Nat → State → Prop
  | 0, _ => True
  | n + 1, s => (s.cs = .execute → storeAddress s (pendingInstr s) ≠ some a) ∧ ∀ t, step s = .next t → NoStoreTo a n t

/-- The registers an instruction writes (the "writes" column of the table after spec/10_state.md R12, "with
`ROT_CTRL_SOURCE = field`": the count of ROT is that of its T field; D3, log 4). -/
def writtenRegs : Instr → List RegIdx
  | .adc r _ _ | .and r _ _ | .xor r _ _ | .ldi r _ | .ldm r _ | .ldr r _ => [r]
  | .rot r _ ctl => if ctl.toNat % 8 = 0 then [] else [r]
  | .psh _ | .jsr _ | .ret => [15]
  | .pop r => [15, r]
  | .hlt | .sto _ _ | .str _ _ | .bra _ _ _ | .mdf _ _ => []

/-- Whether an instruction writes Z (the Z column of R24's table; ROT's count by D3, log 4). -/
def writesZ : Instr → Bool
  | .adc _ _ _ | .and _ _ _ | .xor _ _ _ | .ldi _ _ | .ldm _ _ | .ldr _ _ | .sto _ _ | .str _ _ | .pop _ => true
  | .rot _ _ ctl => decide (ctl.toNat % 8 ≠ 0)
  | .mdf select _ => select.getLsbD 1
  | .hlt | .psh _ | .jsr _ | .ret | .bra _ _ _ => false

/-- Whether an instruction writes C (the C column of R24's table; ROT's count by D3, log 4). -/
def writesC : Instr → Bool
  | .adc _ _ _ => true
  | .rot _ _ ctl => decide (ctl.toNat % 8 ≠ 0)
  | .mdf select _ => select.getLsbD 0
  | .hlt | .and _ _ _ | .xor _ _ _ | .ldi _ _ | .ldm _ _ | .ldr _ _ | .sto _ _ | .str _ _ | .psh _ | .pop _ | .jsr _
  | .ret | .bra _ _ _ => false

/-- The bits a word's format names, by opcode (R52 to R59 and the patterns of R63); the others are ignored (R61). -/
def namedBits (opcode : Nibble) : Word :=
  match opcode with
  | 0x0#4 | 0xD#4 => 0xF000
  | 0x7#4 | 0x9#4 | 0xC#4 => 0xF0FF
  | 0xA#4 | 0xB#4 | 0xF#4 => 0xFF00
  | _ => 0xFFFF

end Sys2Proof.Machine
end

