-- ==== Sys2Proof/Certificates/Slice0/Obligations.lean ====
section
/-! DEFINITION. The statements for the provers. Each says in its docstring which rule of spec/ it formalises.

`t.Shows regs mem z c pc cs ir d` gives every piece of `t`'s state (Sys2Proof/Safety.lean), so a statement that says it of the
answered state gives the result, the flags, the frame and the completion of an instruction at once. `Function.update f k v`
is `f` with the value at `k` replaced by `v`. -/

open Sys2Proof Sys2Proof.Machine

/-! ### Encoding -/

/-- The decode vectors of spec/95_test_vectors.md section 4, one word per opcode. The words of HLT, LDR, STR, PSH, POP, JSR, RET and
MDF have ones in bits their format ignores: that these bits do not matter is decision D8 of the spec (log 13). -/
def Obligations.SpecWordsDecode : Prop :=
  decodeWord 0x09C7 = .hlt ∧ decodeWord 0x19C7 = .adc 9 12 7 ∧ decodeWord 0x29C7 = .and 9 12 7 ∧
  decodeWord 0x39C7 = .xor 9 12 7 ∧ decodeWord 0x49C7 = .rot 9 12 7 ∧ decodeWord 0x59C7 = .ldi 9 0xC7 ∧
  decodeWord 0x69C7 = .ldm 9 0xC7 ∧ decodeWord 0x79C7 = .ldr 12 7 ∧ decodeWord 0x89C7 = .sto 9 0xC7 ∧
  decodeWord 0x99C7 = .str 12 7 ∧ decodeWord 0xA9C7 = .psh 9 ∧ decodeWord 0xB9C7 = .pop 9 ∧
  decodeWord 0xC9C7 = .jsr 0xC7 ∧ decodeWord 0xD9C7 = .ret ∧ decodeWord 0xE9C7 = .bra 2 1 0xC7 ∧
  decodeWord 0xF9C7 = .mdf 2 1

/-- R68: decoding inverts encoding, for every instruction at every operand value, also from the bytes as they lie in memory with
anything after them; the word is the number R68's formula gives; and a placed word lies high byte first. -/
def Obligations.DecodeInvertsEncode : Prop :=
  (∀ i rest, decodeWord (encode i) = i ∧ decodeBytes (encodeBytes i ++ rest) = .ok (i, rest)) ∧
  (∀ i, (encode i).toNat =
    match i with
    | .hlt => 0x0 * 0x1000
    | .adc r a b => 0x1 * 0x1000 + r.toNat * 0x100 + a.toNat * 0x10 + b.toNat
    | .and r a b => 0x2 * 0x1000 + r.toNat * 0x100 + a.toNat * 0x10 + b.toNat
    | .xor r a b => 0x3 * 0x1000 + r.toNat * 0x100 + a.toNat * 0x10 + b.toNat
    | .rot r a ctl => 0x4 * 0x1000 + r.toNat * 0x100 + a.toNat * 0x10 + ctl.toNat
    | .ldi r imm => 0x5 * 0x1000 + r.toNat * 0x100 + imm.toNat
    | .ldm r addr => 0x6 * 0x1000 + r.toNat * 0x100 + addr.toNat
    | .ldr r a => 0x7 * 0x1000 + r.toNat * 0x10 + a.toNat
    | .sto r addr => 0x8 * 0x1000 + r.toNat * 0x100 + addr.toNat
    | .str r a => 0x9 * 0x1000 + r.toNat * 0x10 + a.toNat
    | .psh r => 0xA * 0x1000 + r.toNat * 0x100
    | .pop r => 0xB * 0x1000 + r.toNat * 0x100
    | .jsr target => 0xC000 + target.toNat
    | .ret => 0xD * 0x1000
    | .bra select want target => 0xE000 + select.toNat * 0x400 + want.toNat * 0x100 + target.toNat
    | .mdf select want => 0xF000 + select.toNat * 0x400 + want.toNat * 0x100) ∧
  (∀ (s : State) (a : Byte) (i : Instr),
    ((s.placeWord a (encode i)).cell a).toNat = (encode i).toNat / 256 ∧
    ((s.placeWord a (encode i)).cell (a + 1)).toNat = (encode i).toNat % 256)

/-- R64, with the ignored bits of R61 (decision D8 of the spec): two words decode to the same instruction exactly when they
agree on the bits their opcode's format names, and re-encoding clears the others. -/
def Obligations.DecodingReadsExactlyTheNamedBits : Prop :=
  (∀ v w : Word, decodeWord v = decodeWord w ↔ (v ^^^ w) &&& namedBits (v.extractLsb' 12 4) = 0) ∧
  (∀ w : Word, encode (decodeWord w) = w &&& namedBits (w.extractLsb' 12 4))

/-- R51: the opcode is the top nibble, and it alone selects the row; each row's mask is 0xF000 and its match `opcode << 12`. -/
def Obligations.OpcodeIsTheTopNibble : Prop :=
  (∀ w : Word, (decodeWord w).opcode = w.extractLsb' 12 4) ∧
  (∀ (w : Word) (i : Instr), (decodeWord w).opcode = i.opcode ↔ w &&& 0xF000 = (i.opcode.setWidth 16 : Word) <<< 12)

/-! ### Arithmetic, logic and rotate (spec/41_arith_logic.md) -/

/-- R90. -/
def Obligations.AdcAddsWithCarry : Prop :=
  ∀ (r a b : RegIdx) (s : State),
    decodeWord (BitVec.ofNat 16 (0x1000 + r.toNat * 0x100 + a.toNat * 0x10 + b.toNat)) = .adc r a b ∧
    let sum := (s.reg a).toNat + (s.reg b).toNat + s.c.toNat
    ∃ t, exec (.adc r a b) s = .next t ∧
      t.Shows (regs := Function.update s.reg r (BitVec.ofNat 8 (sum % 256))) (mem := s.cell)
        (z := decide (sum % 256 = 0)) (c := decide (sum > 255)) (pc := s.pc + 2) (cs := .fetch) (ir := s.ir) (d := s.d)

/-- R91. -/
def Obligations.AndCombinesRegisters : Prop :=
  ∀ (r a b : RegIdx) (s : State),
    decodeWord (BitVec.ofNat 16 (0x2000 + r.toNat * 0x100 + a.toNat * 0x10 + b.toNat)) = .and r a b ∧
    ∃ t, exec (.and r a b) s = .next t ∧
      t.Shows (regs := Function.update s.reg r (s.reg a &&& s.reg b)) (mem := s.cell)
        (z := decide (s.reg a &&& s.reg b = 0)) (c := s.c) (pc := s.pc + 2) (cs := .fetch) (ir := s.ir) (d := s.d)

/-- R92. -/
def Obligations.XorCombinesRegisters : Prop :=
  ∀ (r a b : RegIdx) (s : State),
    decodeWord (BitVec.ofNat 16 (0x3000 + r.toNat * 0x100 + a.toNat * 0x10 + b.toNat)) = .xor r a b ∧
    ∃ t, exec (.xor r a b) s = .next t ∧
      t.Shows (regs := Function.update s.reg r (s.reg a ^^^ s.reg b)) (mem := s.cell)
        (z := decide (s.reg a = s.reg b)) (c := s.c) (pc := s.pc + 2) (cs := .fetch) (ir := s.ir) (d := s.d)

/-- R93 with the rotations of R94, over numbers. That T is the control nibble itself, that bit 3 of it set means right, and that
the carry is bit 8 of the ring are decisions D3, D12 and D13 of the spec (logs 4 and 8). -/
def Obligations.RotRotatesThroughCarry : Prop :=
  ∀ (r a : RegIdx) (ctl : Nibble) (s : State),
    decodeWord (BitVec.ofNat 16 (0x4000 + r.toNat * 0x100 + a.toNat * 0x10 + ctl.toNat)) = .rot r a ctl ∧
    let n := ctl.toNat % 8
    let ring := s.c.toNat * 256 + (s.reg a).toNat
    let turned :=
      if ctl.toNat < 8 then ((ring <<< n) ||| (ring >>> (9 - n))) % 512 else ((ring >>> n) ||| (ring <<< (9 - n))) % 512
    ∃ t, exec (.rot r a ctl) s = .next t ∧
      t.Shows (regs := if n = 0 then s.reg else Function.update s.reg r (BitVec.ofNat 8 (turned % 256))) (mem := s.cell)
        (z := if n = 0 then s.z else decide (s.reg r = 0)) (c := if n = 0 then s.c else decide (turned / 256 = 1))
        (pc := s.pc + 2) (cs := .fetch) (ir := s.ir) (d := s.d)

/-- R94: where each bit of the nine-bit ring goes, and that a right rotation is the complementary left one. -/
def Obligations.RotationsMoveEachRingBit : Prop :=
  ∀ (x : Ring) (n i : Nat), 1 ≤ n → n ≤ 8 → i ≤ 8 →
    (rotl9 x n).getLsbD ((i + n) % 9) = x.getLsbD i ∧
    (rotr9 x n).getLsbD ((i + 9 - n) % 9) = x.getLsbD i ∧
    rotr9 x n = rotl9 x (9 - n)

/-- The ROT facts of spec/95_test_vectors.md section 5, from R93 and R94 under D3, D12 and D13 (logs 4 and 8): left `n` then right
`n` in place restores register and carry, left `n` gives what right `9 - n` gives, and nine single rotations restore both. -/
def Obligations.RotationsUndoEachOther : Prop :=
  (∀ (r : RegIdx) (s : State) (n : Nat), 1 ≤ n → n ≤ 7 →
    ∃ t u, exec (.rot r r (BitVec.ofNat 4 n)) s = .next t ∧ exec (.rot r r (BitVec.ofNat 4 (8 + n))) t = .next u ∧
      u.reg r = s.reg r ∧ u.c = s.c) ∧
  (∀ (r a : RegIdx) (s : State) (n : Nat), 2 ≤ n → n ≤ 7 →
    exec (.rot r a (BitVec.ofNat 4 n)) s = exec (.rot r a (BitVec.ofNat 4 (8 + (9 - n)))) s) ∧
  (∀ (r : RegIdx) (s : State),
    ∃ u, (fun o => andThen o (exec (.rot r r 1)))^[9] (.next s) = .next u ∧ u.reg r = s.reg r ∧ u.c = s.c)

/-! ### Loads and stores (spec/42_load_store.md) -/

/-- R100. -/
def Obligations.LdiLoadsTheConstant : Prop :=
  ∀ (r : RegIdx) (imm : Byte) (s : State),
    decodeWord (BitVec.ofNat 16 (0x5000 + r.toNat * 0x100 + imm.toNat)) = .ldi r imm ∧
    ∃ t, exec (.ldi r imm) s = .next t ∧
      t.Shows (regs := Function.update s.reg r imm) (mem := s.cell)
        (z := decide (imm = 0)) (c := s.c) (pc := s.pc + 2) (cs := .fetch) (ir := s.ir) (d := s.d)

/-- R101. -/
def Obligations.LdmLoadsTheCell : Prop :=
  ∀ (r : RegIdx) (addr : Byte) (s : State),
    decodeWord (BitVec.ofNat 16 (0x6000 + r.toNat * 0x100 + addr.toNat)) = .ldm r addr ∧
    ∃ t, exec (.ldm r addr) s = .next t ∧
      t.Shows (regs := Function.update s.reg r (s.cell addr)) (mem := s.cell)
        (z := decide (s.cell addr = 0)) (c := s.c) (pc := s.pc + 2) (cs := .fetch) (ir := s.ir) (d := s.d)

/-- R102; that bits 11 to 8 (`x`) may hold anything is decision D8 of the spec (log 13). -/
def Obligations.LdrLoadsThroughRegister : Prop :=
  ∀ (r a : RegIdx) (x : Nibble) (s : State),
    decodeWord (BitVec.ofNat 16 (0x7000 + x.toNat * 0x100 + r.toNat * 0x10 + a.toNat)) = .ldr r a ∧
    ∃ t, exec (.ldr r a) s = .next t ∧
      t.Shows (regs := Function.update s.reg r (s.cell (s.reg a))) (mem := s.cell)
        (z := decide (s.cell (s.reg a) = 0)) (c := s.c) (pc := s.pc + 2) (cs := .fetch) (ir := s.ir) (d := s.d)

/-- R103. -/
def Obligations.StoStoresTheRegister : Prop :=
  ∀ (r : RegIdx) (addr : Byte) (s : State),
    decodeWord (BitVec.ofNat 16 (0x8000 + r.toNat * 0x100 + addr.toNat)) = .sto r addr ∧
    ∃ t, exec (.sto r addr) s = .next t ∧
      t.Shows (regs := s.reg) (mem := Function.update s.cell addr (s.reg r))
        (z := decide (s.reg r = 0)) (c := s.c) (pc := s.pc + 2) (cs := .fetch) (ir := s.ir) (d := s.d)

/-- R104; that bits 11 to 8 (`x`) may hold anything is decision D8 of the spec (log 13). -/
def Obligations.StrStoresThroughRegister : Prop :=
  ∀ (r a : RegIdx) (x : Nibble) (s : State),
    decodeWord (BitVec.ofNat 16 (0x9000 + x.toNat * 0x100 + r.toNat * 0x10 + a.toNat)) = .str r a ∧
    ∃ t, exec (.str r a) s = .next t ∧
      t.Shows (regs := s.reg) (mem := Function.update s.cell (s.reg a) (s.reg r))
        (z := decide (s.reg r = 0)) (c := s.c) (pc := s.pc + 2) (cs := .fetch) (ir := s.ir) (d := s.d)

/-! ### The stack (spec/43_stack.md) -/

/-- R110; that bits 7 to 0 (`x`) may hold anything is decision D8 of the spec (log 13). For R = 15 the stored byte is the old
`sp`. -/
def Obligations.PshPushesTheRegister : Prop :=
  ∀ (r : RegIdx) (x : Byte) (s : State),
    decodeWord (BitVec.ofNat 16 (0xA000 + r.toNat * 0x100 + x.toNat)) = .psh r ∧
    ∃ t, exec (.psh r) s = .next t ∧
      t.Shows (regs := Function.update s.reg 15 (s.reg 15 - 1)) (mem := Function.update s.cell (s.reg 15) (s.reg r))
        (z := s.z) (c := s.c) (pc := s.pc + 2) (cs := .fetch) (ir := s.ir) (d := s.d)

/-- R111; that bits 7 to 0 (`x`) may hold anything is decision D8 of the spec (log 13). For R = 15 the popped byte is what `sp`
ends as. -/
def Obligations.PopPopsIntoTheRegister : Prop :=
  ∀ (r : RegIdx) (x : Byte) (s : State),
    decodeWord (BitVec.ofNat 16 (0xB000 + r.toNat * 0x100 + x.toNat)) = .pop r ∧
    ∃ t, exec (.pop r) s = .next t ∧
      t.Shows (regs := Function.update (Function.update s.reg 15 (s.reg 15 + 1)) r (s.cell (s.reg 15 + 1))) (mem := s.cell)
        (z := decide (s.cell (s.reg 15 + 1) = 0)) (c := s.c) (pc := s.pc + 2) (cs := .fetch) (ir := s.ir) (d := s.d)

/-- R112: push writes then decrements, pop increments then reads; PSH then POP of any register, 15 included, restores every
register, changes the one cell at `sp`, keeps it when popping, and only POP writes Z; and the first push after reset. A pop from any
state (POP, RET) increments and then reads the cell at `sp`, and a push (PSH, JSR) writes there and then decrements. -/
def Obligations.PushThenPopRestoresRegisters : Prop :=
  (∀ (r : RegIdx) (s : State),
    ∃ t u, exec (.psh r) s = .next t ∧ exec (.pop r) t = .next u ∧
      t.reg 15 = s.reg 15 - 1 ∧ t.cell (s.reg 15) = s.reg r ∧ t.z = s.z ∧
      (∀ q, u.reg q = s.reg q) ∧ u.z = decide (s.reg r = 0) ∧ u.c = s.c ∧
      (∀ a, u.cell a = if a = s.reg 15 then s.reg r else s.cell a) ∧ (∀ a, u.cell a = t.cell a)) ∧
  (∀ r : RegIdx, ∃ t, exec (.psh r) State.reset = .next t ∧ t.cell 255 = State.reset.reg r ∧ t.reg 15 = 254) ∧
  (∀ (r : RegIdx) (s : State), ∃ t, exec (.pop r) s = .next t ∧ t.reg r = s.cell (s.reg 15 + 1) ∧
    (r ≠ 15 → t.reg 15 = s.reg 15 + 1) ∧ ∀ a, t.cell a = s.cell a) ∧
  (∀ s : State, ∃ t, exec .ret s = .next t ∧ t.pc = s.cell (s.reg 15 + 1) ∧ t.reg 15 = s.reg 15 + 1 ∧
    ∀ a, t.cell a = s.cell a) ∧
  (∀ (target : Byte) (s : State), ∃ t, exec (.jsr target) s = .next t ∧ t.cell (s.reg 15) = s.pc + 2 ∧
    t.reg 15 = s.reg 15 - 1)

/-- R39: `sp` wraps and nothing checks it. POP R15 is the one pop after which `sp` is not the moved pointer but the byte read
(R111). -/
def Obligations.StackPointerWraps : Prop :=
  (∀ (r : RegIdx) (s : State), s.reg 15 = 0 →
    ∃ t, exec (.psh r) s = .next t ∧ t.cell 0 = s.reg r ∧ t.reg 15 = 255 ∧ ∀ a, a ≠ 0 → t.cell a = s.cell a) ∧
  (∀ (target : Byte) (s : State), s.reg 15 = 0 →
    ∃ t, exec (.jsr target) s = .next t ∧ t.cell 0 = s.pc + 2 ∧ t.reg 15 = 255 ∧ ∀ a, a ≠ 0 → t.cell a = s.cell a) ∧
  (∀ (r : RegIdx) (s : State), s.reg 15 = 255 →
    ∃ t, exec (.pop r) s = .next t ∧ t.reg r = s.cell 0 ∧ (r ≠ 15 → t.reg 15 = 0)) ∧
  (∀ s : State, s.reg 15 = 255 → ∃ t, exec .ret s = .next t ∧ t.pc = s.cell 0 ∧ t.reg 15 = 0)

/-! ### Control transfer (spec/44_control_transfer.md) -/

/-- R120 and R123; that bits 11 to 8 (`x`) may hold anything is decision D8 of the spec (log 13). -/
def Obligations.JsrPushesTheReturnAddress : Prop :=
  ∀ (target : Byte) (x : Nibble) (s : State),
    decodeWord (BitVec.ofNat 16 (0xC000 + x.toNat * 0x100 + target.toNat)) = .jsr target ∧
    ∃ t, exec (.jsr target) s = .next t ∧
      t.Shows (regs := Function.update s.reg 15 (s.reg 15 - 1)) (mem := Function.update s.cell (s.reg 15) (s.pc + 2))
        (z := s.z) (c := s.c) (pc := target) (cs := .fetch) (ir := s.ir) (d := s.d)

/-- R121 and R123; that bits 11 to 0 (`x`) may hold anything is decision D8 of the spec (log 13). -/
def Obligations.RetPopsTheProgramCounter : Prop :=
  ∀ (x : Nat) (s : State), x < 0x1000 →
    decodeWord (BitVec.ofNat 16 (0xD000 + x)) = .ret ∧
    ∃ t, exec .ret s = .next t ∧
      t.Shows (regs := Function.update s.reg 15 (s.reg 15 + 1)) (mem := s.cell)
        (z := s.z) (c := s.c) (pc := s.cell (s.reg 15 + 1)) (cs := .fetch) (ir := s.ir) (d := s.d)

/-- R122: the branch is taken exactly when every selected flag has the wanted value, which is the test
`select & (cur ^ state) == 0` with `cur = {Z, C}`. -/
def Obligations.BraBranchesOnSelectedFlags : Prop :=
  ∀ (select want : FlagPair) (target : Byte) (s : State),
    decodeWord (BitVec.ofNat 16 (0xE000 + select.toNat * 0x400 + want.toNat * 0x100 + target.toNat)) =
      .bra select want target ∧
    let cur : FlagPair := BitVec.ofNat 2 (s.z.toNat * 2 + s.c.toNat)
    let taken : Bool :=
      (!select.getLsbD 1 || s.z == want.getLsbD 1) && (!select.getLsbD 0 || s.c == want.getLsbD 0)
    (taken = true ↔ select &&& (cur ^^^ want) = 0) ∧
    ∃ t, exec (.bra select want target) s = .next t ∧
      t.Shows (regs := s.reg) (mem := s.cell) (z := s.z) (c := s.c) (pc := if taken then target else s.pc + 2)
        (cs := .fetch) (ir := s.ir) (d := s.d)

/-- R120, R121 and R112: a RET that meets the stack as its JSR left it goes on after the JSR, with every register restored and only
the pushed cell changed. -/
def Obligations.ReturnUndoesCall : Prop :=
  ∀ (target : Byte) (s : State),
    ∃ t u, exec (.jsr target) s = .next t ∧ t.pc = target ∧ exec .ret t = .next u ∧
      u.Shows (regs := s.reg) (mem := Function.update s.cell (s.reg 15) (s.pc + 2)) (z := s.z) (c := s.c)
        (pc := s.pc + 2) (cs := .fetch) (ir := s.ir) (d := s.d)

/-! ### System (spec/45_system.md) -/

/-- R130: under either value of `HLT_PC_ADVANCE`, and under the machine's own, 2 (decision D2 of the spec, log 3). Every word 0x0000
to 0x0FFF is HLT (D8, log 13). -/
def Obligations.HltEntersHalt : Prop :=
  (∀ x : Nat, x < 0x1000 → decodeWord (BitVec.ofNat 16 x) = .hlt) ∧
  (∀ s : State, ∃ t, exec .hlt s = .next t ∧
    t.Shows (regs := s.reg) (mem := s.cell) (z := s.z) (c := s.c) (pc := s.pc + 2) (cs := .halt) (ir := s.ir) (d := s.d)) ∧
  (∀ (cfg : Config) (s : State), ∃ t, execWith cfg .hlt s = .next t ∧
    t.Shows (regs := s.reg) (mem := s.cell) (z := s.z) (c := s.c)
      (pc := match cfg.hltPcAdvance with | .two => s.pc + 2 | .zero => s.pc) (cs := .halt) (ir := s.ir) (d := s.d))

/-- R131; that bits 7 to 0 (`x`) may hold anything is decision D8 of the spec (log 13). -/
def Obligations.MdfWritesSelectedFlags : Prop :=
  ∀ (select want : FlagPair) (x : Byte) (s : State),
    decodeWord (BitVec.ofNat 16 (0xF000 + select.toNat * 0x400 + want.toNat * 0x100 + x.toNat)) = .mdf select want ∧
    ∃ t, exec (.mdf select want) s = .next t ∧
      t.Shows (regs := s.reg) (mem := s.cell) (z := if select.getLsbD 1 then want.getLsbD 1 else s.z)
        (c := if select.getLsbD 0 then want.getLsbD 0 else s.c) (pc := s.pc + 2) (cs := .fetch) (ir := s.ir) (d := s.d)

/-- The parameters D2 and D3 reach HLT and ROT only; under `ROT_CTRL_SOURCE = register` ROT does what it does with the low four bits
of `x[T]` as its control nibble, and nothing else changes (R69, R93). -/
def Obligations.ParametersReachHltAndRotOnly : Prop :=
  (∀ (cfg : Config) (i : Instr) (s : State), i.opcode ≠ 0 → i.opcode ≠ 4 → execWith cfg i s = exec i s) ∧
  (∀ (cfg : Config) (r a b : RegIdx) (s : State), execWith cfg (.rot r a b) s =
    match cfg.rotCtrlSource with
    | .field => exec (.rot r a b) s
    | .register => exec (.rot r a (BitVec.ofNat 4 ((s.reg b).toNat % 16))) s)

/-! ### The cycle engine (spec/40_cycle_engine.md) -/

/-- R72 and R32: Fetch latches the two bytes at `pc`, the first one high, and changes nothing else. -/
def Obligations.FetchLatchesTheWordHighByteFirst : Prop :=
  ∀ s : State, s.cs = .fetch →
    ∃ t, step s = .next t ∧
      t.Shows (regs := s.reg) (mem := s.cell) (z := s.z) (c := s.c) (pc := s.pc) (cs := .decode)
        (ir := BitVec.ofNat 16 ((s.cell s.pc).toNat * 256 + (s.cell (s.pc + 1)).toNat)) (d := s.d) ∧
      t.ir.extractLsb' 12 4 = (s.cell s.pc).extractLsb' 4 4

/-- R73 with the table of R67; which of `d[1..3]` takes which field is decision D4 of the spec (log 6). -/
def Obligations.DecodeFillsTheScratchFields : Prop :=
  ∀ s : State, s.cs = .decode →
    let w := s.ir.toNat
    let op := w / 4096
    ∃ t, step s = .next t ∧
      t.Shows (regs := s.reg) (mem := s.cell) (z := s.z) (c := s.c) (pc := s.pc) (cs := .execute) (ir := s.ir)
        (d :=
          { d0 := BitVec.ofNat 8 op
            d1 := BitVec.ofNat 8
              (if op ∈ [1, 2, 3, 4, 5, 6, 8, 10, 11] then w / 256 % 16 else if op ∈ [7, 9] then w / 16 % 16
                else if op = 12 then w % 256 else if op ∈ [14, 15] then w / 1024 % 4 else 0)
            d2 := BitVec.ofNat 8
              (if op ∈ [1, 2, 3, 4] then w / 16 % 16 else if op ∈ [5, 6, 8] then w % 256
                else if op ∈ [7, 9] then w % 16 else if op ∈ [14, 15] then w / 256 % 4 else 0)
            d3 := BitVec.ofNat 8 (if op ∈ [1, 2, 3, 4] then w % 16 else if op = 14 then w % 256 else 0) })

/-- R71 to R74 and R80: a step in Execute is `exec` of the instruction whose fields `d[0..3]` hold; and from Fetch, three steps are
`exec` of the instruction whose bytes stand at `pc`, in the state whose `ir`, `d[0..3]` and `cs` the first two have set. -/
def Obligations.StepsExecuteTheFetchedInstruction : Prop :=
  (∀ (s : State) (i : Instr), s.cs = .execute → s.d = scratchOf i → step s = exec i s) ∧
  (∀ (s : State) (i : Instr), s.cs = .fetch → decodeBytes [s.cell s.pc, s.cell (s.pc + 1)] = .ok (i, []) →
    runSteps 3 s =
      exec i { s with ir := wordOfBytes (s.cell s.pc) (s.cell (s.pc + 1)), d := scratchOf i, cs := .execute })

/-- The model's own interface (logs 1 and 2): the word of `withFetchWord` is the instruction the next step runs, it lies at `pc`, and
the registers, the flags, `pc` and the other cells are untouched. -/
def Obligations.PlacedWordRunsNext : Prop :=
  ∀ (s : State) (w : Word),
    decodeTableWord 16 w.toNat = some (decodeWord w) ∧
    step (s.withFetchWord 16 w.toNat) = exec (decodeWord w) (s.withFetchWord 16 w.toNat) ∧
    (s.withFetchWord 16 w.toNat).Shows (regs := s.reg)
      (mem := Function.update (Function.update s.cell s.pc (hiByte w)) (s.pc + 1) (loByte w))
      (z := s.z) (c := s.c) (pc := s.pc) (cs := .execute) (ir := w) (d := scratchOf (decodeWord w))

/-- R70: the transitions of the cycle state. In Execute `d[0]` is the opcode a Decode left (R23's invariant). -/
def Obligations.CycleMovesAsTheTableSays : Prop :=
  (∀ s : State, s.cs = .fetch → ∃ t, step s = .next t ∧ t.cs = .decode) ∧
  (∀ s : State, s.cs = .decode → ∃ t, step s = .next t ∧ t.cs = .execute) ∧
  (∀ s : State, s.ScratchCoherent → s.cs = .execute → s.d.d0 ≠ 0 → ∃ t, step s = .next t ∧ t.cs = .fetch) ∧
  (∀ s : State, s.ScratchCoherent → s.cs = .execute → s.d.d0 = 0 → ∃ t, step s = .next t ∧ t.cs = .halt) ∧
  (∀ s : State, s.cs = .halt → step s = .next s) ∧
  State.reset.cs = .fetch ∧ (∀ (cfg : Config) (s : State), (warmReset cfg s).cs = .fetch)

/-- R76: in Halt the four stepping operations change nothing, the halted state holds what HLT found and the HLT word, and the reset
and memory operations still act. -/
def Obligations.HaltIsTerminalForStepping : Prop :=
  (∀ s : State, s.cs = .halt →
    step s = .next s ∧
    ∀ (cfg : Config) (hint fuel : Nat), subStepWith cfg s = .next s ∧ fullStep cfg s = .next s ∧
      runPart cfg hint fuel s = some s ∧ runFull cfg hint fuel s = some s) ∧
  (∀ s t : State, s.ScratchCoherent → s.cs = .execute → step s = .next t → t.cs = .halt →
    t.Shows (regs := s.reg) (mem := s.cell) (z := s.z) (c := s.c) (pc := t.pc) (cs := .halt) (ir := s.ir) (d := s.d) ∧
    decodeWord t.ir = .hlt ∧ t.d.d0 = 0) ∧
  (∀ s : State, s.cs = .halt →
    (∀ cfg, (warmReset cfg s).cs = .fetch) ∧ (∀ a, (clearMemory s).cell a = 0) ∧
    ∀ bs : List Byte, 256 ≤ bs.length → ∃ t, loadMemory (.bytes bs) s = .ok t ∧ ∀ a, t.cell a = bs.getD a.toNat 0)

/-- R153: Halt is entered only by executing HLT, changes under no operation but a reset, `create` or a poke, and
`reset_registers` leaves it with memory kept. -/
def Obligations.HaltIsEnteredByHltAndLeftByReset : Prop :=
  (∀ s t : State, step s = .next t → (t.cs = .halt ↔ s.cs = .halt ∨ (s.cs = .execute ∧ pendingInstr s = .hlt))) ∧
  (∀ s t : State, s.cs = .halt → step s = .next t → t = s) ∧
  (∀ (cfg : Config) (op : HostOp) (s t : State) (reply : HostReply), s.cs = .halt → op ≠ .create → op ≠ .resetRegisters →
    (∀ p v, op ≠ .poke p v) → hostCall cfg op s = (reply, some t) → t.cs = .halt) ∧
  (∀ (cfg : Config) (s : State), s.cs = .halt →
    (warmReset cfg s).cs = .fetch ∧ (warmReset cfg s).pc = 0 ∧ (warmReset cfg s).mem = s.mem ∧
    ∀ r, (warmReset cfg s).reg r = State.reset.reg r)

/-- R77; that a full step ends with the first Execute is decision D7 of the spec (log 11): three sub-steps from Fetch, two from Decode,
one from Execute, none from Halt, and it ends in Fetch or Halt. -/
def Obligations.FullStepRunsThroughOneExecute : Prop :=
  ∀ (cfg : Config) (s : State),
    fullStep cfg s =
      (match s.cs with
      | .halt => .next s
      | .execute => subStepWith cfg s
      | .decode => andThen (subStepWith cfg s) (subStepWith cfg)
      | .fetch => andThen (andThen (subStepWith cfg s) (subStepWith cfg)) (subStepWith cfg)) ∧
    ∃ t, fullStep cfg s = .next t ∧ (t.cs = .fetch ∨ t.cs = .halt)

/-- R78 and R79, under fuel (decision D14 of the spec, log 14): `run_part` and `run_full` reach the same halted states, whatever the pacing
hint. -/
def Obligations.RunPartAndRunFullAgree : Prop :=
  (∀ (cfg : Config) (hint hint' : Nat) (s t : State),
    (∃ fuel, runPart cfg hint fuel s = some t) ↔ (∃ fuel, runFull cfg hint' fuel s = some t)) ∧
  (∀ (cfg : Config) (hint fuel : Nat) (s t : State), runPart cfg hint fuel s = some t → t.cs = .halt) ∧
  (∀ (cfg : Config) (hint hint' fuel fuel' : Nat) (s t u : State),
    runPart cfg hint fuel s = some t → runPart cfg hint' fuel' s = some u → t = u)

/-- The pseudocode of spec/40_cycle_engine.md section 7, over unbounded numbers, is what one sub-step does, under every choice of the
parameters and under the machine's own. In Execute the scratch fields are ones a Decode can leave (R67, R23). The pseudocode's Decode
branch has the field order of decision D4 (log 6), its ROT row the direction and the ring of D12 and D13 (logs 4 and 8), and the
machine's own parameters are those of D2 and D3 (logs 3 and 4). -/
def Obligations.SubStepRefinesThePseudocode : Prop :=
  ∀ s : State, (s.cs = .execute → s.d.wellFormed = true) →
    (∀ cfg : Config, ∃ t, subStepWith cfg s = .next t ∧ t.view = s.view.subStep cfg) ∧
    ∃ t, step s = .next t ∧ t.view = s.view.subStep Config.specDefault

/-! ### Rules of the whole machine -/

/-- R140, R154 and R62: nothing ever stops. Every sub-step of every state answers a next state, every instruction executes in every
state, every word is an instruction, and every run goes on. -/
def Obligations.NothingStopsTheMachine : Prop :=
  (∀ s : State, ∃ t, step s = .next t) ∧ (∀ (i : Instr) (s : State), ∃ t, exec i s = .next t) ∧
  (∀ w : Nat, ∃ i, decodeTableWord 16 w = some i) ∧ (∀ s : State, SafeRun s)

/-- The tables of R24 (flags), R30 (memory) and the one after R12 (registers): what no instruction writes beside what its row names.
`ir` and `d[0..3]` no instruction writes (R74). Whether ROT's count is 0, so that it writes nothing, is read from its T field: decision
D3 of the spec (log 4). -/
def Obligations.InstructionsWriteOnlyWhatTheirRowNames : Prop :=
  ∀ (i : Instr) (s t : State), exec i s = .next t →
    (∀ q, q ∉ writtenRegs i → t.reg q = s.reg q) ∧
    (∀ a, storeAddress s i ≠ some a → t.cell a = s.cell a) ∧
    (writesZ i = false → t.z = s.z) ∧ (writesC i = false → t.c = s.c) ∧ t.ir = s.ir ∧ t.d = s.d

/-- R75 and R13: `pc` after the Execute of each instruction, under either `HLT_PC_ADVANCE` (D2, log 3), and no other sub-step writes
`pc`. -/
def Obligations.OnlyExecuteMovesThePc : Prop :=
  (∀ (cfg : Config) (i : Instr) (s : State), ∃ t, execWith cfg i s = .next t ∧
    t.pc =
      match i with
      | .hlt => (match cfg.hltPcAdvance with | .two => s.pc + 2 | .zero => s.pc)
      | .jsr target => target
      | .ret => s.cell (s.reg 15 + 1)
      | .bra select want target =>
        if (select.getLsbD 1 → s.z = want.getLsbD 1) ∧ (select.getLsbD 0 → s.c = want.getLsbD 0) then target else s.pc + 2
      | _ => s.pc + 2) ∧
  (∀ s t : State, step s = .next t → s.cs ≠ .execute → t.pc = s.pc)

/-- R14, R20 and R74, of `exec` of a given instruction, which takes its operands from that instruction (log 1): it writes neither `ir`
nor `d[0..3]`, and reads no operand a second time from them. That the Execute sub-step reads the instruction from `d[0..3]` is
`StepsExecuteTheFetchedInstruction`. -/
def Obligations.ExecuteIsBlindToIrAndScratch : Prop :=
  ∀ (i : Instr) (s t : State) (w : Word) (e : Scratch), exec i s = .next t →
    t.ir = s.ir ∧ t.d = s.d ∧ exec i { s with ir := w, d := e } = .next { t with ir := w, d := e }

/-- R42: a storing instruction executes as it was fetched, whatever it stores over; and after any number of further steps that do not
store to the same cell, that cell holds the stored byte, and a Fetch, wherever it reads, sees it. -/
def Obligations.StoresReachEveryLaterFetch : Prop :=
  ∀ (s : State) (i : Instr) (a : Byte), s.cs = .fetch → decodeBytes [s.cell s.pc, s.cell (s.pc + 1)] = .ok (i, []) →
    storeAddress s i = some a →
    let v :=
      match i with
      | .sto r _ => s.reg r
      | .str r _ => s.reg r
      | .psh r => s.reg r
      | _ => s.pc + 2
    ∃ t : State, runSteps 3 s = .next t ∧ t.cs = .fetch ∧ (∀ b, t.cell b = if b = a then v else s.cell b) ∧
      ∀ (n : Nat) (u : State), NoStoreTo a n t → runSteps n t = .next u →
        u.cell a = v ∧
        (u.cs = .fetch → ∀ p : Byte, ∃ x, step { u with pc := p } = .next x ∧
          x.ir = wordOfBytes (if p = a then v else u.cell p) (if p + 1 = a then v else u.cell (p + 1)))

/-- R166 (derived in the spec, with D2 and D8: logs 3 and 13): a first byte below 0x10 halts, with nothing changed but `ir`,
`d[0..3]`, `cs` and `pc`; the machine fresh from reset does so. -/
def Obligations.ZeroOpcodeHaltsAndChangesNothingElse : Prop :=
  (∀ s : State, s.cs = .fetch → (s.cell s.pc).toNat < 0x10 →
    ∃ t : State, runSteps 3 s = .next t ∧
      t.Shows (regs := s.reg) (mem := s.cell) (z := s.z) (c := s.c) (pc := s.pc + 2) (cs := .halt)
        (ir := wordOfBytes (s.cell s.pc) (s.cell (s.pc + 1))) (d := ⟨0, 0, 0, 0⟩)) ∧
  (State.reset.cell State.reset.pc).toNat < 0x10 ∧ State.reset.cs = .fetch

/-! ### Invariants (spec/10_state.md R23) -/

/-- R45 and R23: a launched machine has its image in memory, everything else at its reset value, and meets the invariant; so does the
machine fresh from reset. -/
def Obligations.LaunchMeetsTheInvariant : Prop :=
  State.reset.Inv ∧
  (∀ (bs : List Byte), 256 ≤ bs.length → ∃ s, launch (.bytes bs) = .ok s) ∧
  (∀ (src : ImageSource) (s : State), launch src = .ok s → s.Inv ∧
    ∃ bs, src = .bytes bs ∧ 256 ≤ bs.length ∧
      s.Shows (regs := fun r => if r = 15 then 255 else 0) (mem := fun a => bs.getD a.toNat 0) (z := false) (c := false)
        (pc := 0) (cs := .fetch) (ir := 0) (d := ⟨0, 0, 0, 0⟩))

/-- R23: every step keeps the invariant: canonical memory; in Execute the scratch fields are those of `ir`; in Halt they and `ir` are
HLT's; from Fetch to Execute `ir` is the word at `pc`. -/
def Obligations.EveryStepKeepsTheInvariant : Prop :=
  ∀ s t : State, s.Inv → step s = .next t → t.Inv

/-- R23, read over launched runs: what the rule says of every reachable state (the ranges of the values are the types'). That the status
byte is below 16 is decision D6 of the spec (log 9), and which scratch field holds which operand is D4 (log 6). -/
def Obligations.ReachableStatesAreCoherent : Prop :=
  ∀ s : State, Reachable s →
    s.mem.wf = true ∧ s.sr.toNat < 16 ∧
    (s.cs = .decode → s.ir.toNat = (s.cell s.pc).toNat * 256 + (s.cell (s.pc + 1)).toNat) ∧
    (s.cs = .execute → s.d.d0 = (s.ir.extractLsb' 12 4).setWidth 8 ∧ s.d = scratchOf (decodeWord s.ir) ∧
      s.d.wellFormed = true) ∧
    (s.cs = .halt → s.ir.toNat < 0x1000 ∧ s.d = ⟨0, 0, 0, 0⟩)

/-- R147 and R23: every host operation but poke leaves the memory canonical and the scratch fields coherent (the middle of a cycle
included: R163; D17, log 15). A poke may break it (R150). -/
def Obligations.HostOperationsKeepTheMachineCoherent : Prop :=
  ∀ (cfg : Config) (op : HostOp) (s t : State) (reply : HostReply), (∀ p v, op ≠ .poke p v) →
    s.MemCanonical → s.ScratchCoherent → hostCall cfg op s = (reply, some t) → t.MemCanonical ∧ t.ScratchCoherent

/-! ### Resets, the memory image and the accessors -/

/-- R160: the state a cold reset leaves. -/
def Obligations.ColdResetState : Prop :=
  State.reset.Shows (regs := fun r => if r = 15 then 255 else 0) (mem := fun _ => 0) (z := false) (c := false) (pc := 0)
    (cs := .fetch) (ir := 0) (d := ⟨0, 0, 0, 0⟩) ∧ State.reset.sr = 0

/-- R26: after either reset the first sub-step fetches the bytes at addresses 0 and 1. -/
def Obligations.FirstFetchAfterResetReadsAddressZero : Prop :=
  (State.reset.pc = 0 ∧ State.reset.cs = .fetch ∧
    ∃ t, step State.reset = .next t ∧ t.ir = wordOfBytes (State.reset.cell 0) (State.reset.cell 1)) ∧
  (∀ (cfg : Config) (s : State), (warmReset cfg s).pc = 0 ∧ (warmReset cfg s).cs = .fetch ∧
    ∃ t, step (warmReset cfg s) = .next t ∧ t.ir = wordOfBytes (s.cell 0) (s.cell 1))

/-- R161 to R163, R27: a warm reset, in any cycle state, keeps memory and resets the rest, the scratch fields as
`WARM_RESET_CLEARS_SCRATCH` says (D5; the machine's own value keeps them, log 5); a cold reset is a warm reset, a memory clear and
the zeroing of the scratch fields. -/
def Obligations.WarmResetKeepsMemory : Prop :=
  (∀ (cfg : Config) (s : State),
    (warmReset cfg s).Shows (regs := fun r => if r = 15 then 255 else 0) (mem := s.cell) (z := false) (c := false) (pc := 0)
      (cs := .fetch) (ir := 0) (d := if cfg.warmResetClearsScratch then ⟨0, 0, 0, 0⟩ else s.d)) ∧
  (∀ s : State, (warmReset params s).d = s.d) ∧
  (∀ (cfg : Config) (s : State), { clearMemory (warmReset cfg s) with d := ⟨0, 0, 0, 0⟩ } = State.reset)

/-- R44 and R28: what a load, a save and a clear do, that they touch nothing but memory, the short image, and the round trip. What
memory holds after a short load is a free value (log 10); a load that fails otherwise, and a save, whether it fails or not, leave the
machine as it was (R147, R152). -/
def Obligations.MemoryImageRoundTrips : Prop :=
  (∀ (bs : List Byte) (s : State), 256 ≤ bs.length →
    ∃ t, loadMemory (.bytes bs) s = .ok t ∧
      t.Shows (regs := s.reg) (mem := fun a => bs.getD a.toNat 0) (z := s.z) (c := s.c) (pc := s.pc) (cs := s.cs)
        (ir := s.ir) (d := s.d)) ∧
  (∀ (bs : List Byte) (s : State), bs.length < 256 → loadMemory (.bytes bs) s = .error .shortInput) ∧
  (∀ (cfg : Config) (s : State),
    hostCall cfg (.loadMemory .missing) s = (.failed .notFound, some s) ∧
    hostCall cfg (.loadMemory .unreadable) s = (.failed .unreadable, some s) ∧
    hostCall cfg (.saveMemory .unwritable) s = (.failed .unwritable, some s) ∧
    ∃ bs, saveMemory .writable s = .ok bs ∧ hostCall cfg (.saveMemory .writable) s = (.image bs, some s)) ∧
  (∀ (cfg : Config) (src : ImageSource) (e : IoError) (s : State), loadMemory src s = .error e →
    ∃ t, hostCall cfg (.loadMemory src) s = (.failed e, some t) ∧ (e ≠ .shortInput → t = s) ∧
      t.Shows (regs := s.reg) (mem := t.cell) (z := s.z) (c := s.c) (pc := s.pc) (cs := s.cs) (ir := s.ir) (d := s.d)) ∧
  (∀ s : State, ∃ bs, saveMemory .writable s = .ok bs ∧ bs.length = 256 ∧ ∀ a : Byte, bs.getD a.toNat 0 = s.cell a) ∧
  (∀ s t : State, s.MemCanonical →
    ∃ bs, saveMemory .writable s = .ok bs ∧ loadMemory (.bytes bs) t = .ok { t with mem := s.mem }) ∧
  (∀ s : State, (clearMemory s).Shows (regs := s.reg) (mem := fun _ => 0) (z := s.z) (c := s.c) (pc := s.pc) (cs := s.cs)
    (ir := s.ir) (d := s.d))

/-- R149, R15, R16 and R19: what each read accessor shows, and that it changes nothing; and the status byte has the cycle state in bits
3 to 2, Z in bit 1, C in bit 0 and 0 above (the zeros are decision D6 of the spec, log 9). -/
def Obligations.AccessorsShowTheStatusByte : Prop :=
  (∀ (cfg : Config) (p : Place) (s : State), hostCall cfg (.read p) s = (.value (accessor s p), some s)) ∧
  (∀ s : State,
    (∀ r, accessor s (.reg r) = (s.reg r).toNat) ∧ (∀ a, accessor s (.cell a) = (s.cell a).toNat) ∧
    accessor s .pc = s.pc.toNat ∧ accessor s .ir = s.ir.toNat ∧ accessor s .sr = s.sr.toNat ∧
    accessor s (.scratch 0) = s.d.d0.toNat ∧ accessor s (.scratch 1) = s.d.d1.toNat ∧
    accessor s (.scratch 2) = s.d.d2.toNat ∧ accessor s (.scratch 3) = s.d.d3.toNat) ∧
  (∀ s : State, s.sr.getLsbD 0 = s.c ∧ s.sr.getLsbD 1 = s.z ∧ s.sr.extractLsb' 4 4 = 0 ∧
    s.sr.extractLsb' 2 2 = (match s.cs with | .fetch => 0b00#2 | .decode => 0b01#2 | .execute => 0b10#2 | .halt => 0b11#2))

/-- R150 (a host move outside the engine's contract; D9, log 12): a poked value is reduced to its target's width, and nothing but the
target changes. That a poke of the status register leaves its bits 7 to 4 at 0, so that it is reduced modulo 16, is decision D6 of
the spec (R19, log 9). -/
def Obligations.PokeReducesToTheTargetsWidth : Prop :=
  ∀ (v : Nat) (s : State),
    (∀ r, (poke (.reg r) v s).Shows (Function.update s.reg r (BitVec.ofNat 8 (v % 256))) s.cell s.z s.c s.pc s.cs s.ir s.d) ∧
    (∀ a, (poke (.cell a) v s).Shows s.reg (Function.update s.cell a (BitVec.ofNat 8 (v % 256))) s.z s.c s.pc s.cs s.ir s.d) ∧
    (poke .pc v s).Shows s.reg s.cell s.z s.c (BitVec.ofNat 8 (v % 256)) s.cs s.ir s.d ∧
    (poke .ir v s).Shows s.reg s.cell s.z s.c s.pc s.cs (BitVec.ofNat 16 (v % 65536)) s.d ∧
    (poke .sr v s).sr = BitVec.ofNat 8 (v % 16) ∧
    (poke .sr v s).Shows s.reg s.cell (poke .sr v s).z (poke .sr v s).c s.pc (poke .sr v s).cs s.ir s.d ∧
    (∀ k, (poke (.scratch k) v s).Shows s.reg s.cell s.z s.c s.pc s.cs s.ir (poke (.scratch k) v s).d ∧
      ∀ j, scratchField (poke (.scratch k) v s).d j = if j = k then BitVec.ofNat 8 (v % 256) else scratchField s.d j)
end

