-- ==== Sys2Proof/Laws/Decode.lean ====
section
/-! SUPPORT. The fields of a word as numbers, the byte order both ways, and the opcode map. -/

namespace Sys2Proof

theorem fieldOpcode_toNat (w : Word) : (fieldOpcode w).toNat = w.toNat / 4096 := by
  simp only [fieldOpcode, BitVec.extractLsb'_toNat, Nat.shiftRight_eq_div_pow]
  omega

theorem field11to8_toNat (w : Word) : (field11to8 w).toNat = w.toNat / 256 % 16 := by
  simp only [field11to8, BitVec.extractLsb'_toNat, Nat.shiftRight_eq_div_pow]

theorem field7to4_toNat (w : Word) : (field7to4 w).toNat = w.toNat / 16 % 16 := by
  simp only [field7to4, BitVec.extractLsb'_toNat, Nat.shiftRight_eq_div_pow]

theorem field3to0_toNat (w : Word) : (field3to0 w).toNat = w.toNat % 16 := by
  simp only [field3to0, BitVec.extractLsb'_toNat, Nat.shiftRight_eq_div_pow]
  omega

theorem fieldLow8_toNat (w : Word) : (fieldLow8 w).toNat = w.toNat % 256 := by
  simp only [fieldLow8, BitVec.extractLsb'_toNat, Nat.shiftRight_eq_div_pow]
  omega

theorem fieldSelect_toNat (w : Word) : (fieldSelect w).toNat = w.toNat / 1024 % 4 := by
  simp only [fieldSelect, BitVec.extractLsb'_toNat, Nat.shiftRight_eq_div_pow]

theorem fieldState_toNat (w : Word) : (fieldState w).toNat = w.toNat / 256 % 4 := by
  simp only [fieldState, BitVec.extractLsb'_toNat, Nat.shiftRight_eq_div_pow]

theorem hiByte_toNat (w : Word) : (hiByte w).toNat = w.toNat / 256 := by
  simp only [hiByte, BitVec.extractLsb'_toNat, Nat.shiftRight_eq_div_pow]
  omega

theorem loByte_toNat (w : Word) : (loByte w).toNat = w.toNat % 256 := by
  simp only [loByte, BitVec.extractLsb'_toNat, Nat.shiftRight_eq_div_pow]
  omega

theorem wordOfBytes_toNat (hi lo : Byte) : (wordOfBytes hi lo).toNat = hi.toNat * 256 + lo.toNat := by
  simp only [wordOfBytes, BitVec.toNat_ofNat]
  omega

/-- The two bytes of a word, high byte first, make the word again. -/
@[simp] theorem wordOfBytes_hi_lo (w : Word) : wordOfBytes (hiByte w) (loByte w) = w := by
  apply BitVec.eq_of_toNat_eq
  rw [wordOfBytes_toNat, hiByte_toNat, loByte_toNat]
  omega

@[simp] theorem hiByte_wordOfBytes (hi lo : Byte) : hiByte (wordOfBytes hi lo) = hi := by
  apply BitVec.eq_of_toNat_eq
  rw [hiByte_toNat, wordOfBytes_toNat]
  omega

@[simp] theorem loByte_wordOfBytes (hi lo : Byte) : loByte (wordOfBytes hi lo) = lo := by
  apply BitVec.eq_of_toNat_eq
  rw [loByte_toNat, wordOfBytes_toNat]
  omega

theorem decodeBytes_pair (w : Word) (rest : List Byte) :
    decodeBytes (hiByte w :: loByte w :: rest) = .ok (decodeWord w, rest) := by
  simp [decodeBytes]

/-- The opcode table has sixteen different rows: no two nibbles stand for one opcode. -/
theorem Opcode.ofNibble_injective : ∀ m n : Nibble, Opcode.ofNibble m = Opcode.ofNibble n → m = n := by
  decide

end Sys2Proof
end

