-- ==== Sys2Proof/Laws/Flags.lean ====
section
/-! SUPPORT. The flag and operand computations as numbers. -/

namespace Sys2Proof.Machine

theorem adcSum_le (x y : Byte) (c : Bool) : adcSum x y c ≤ 511 := by
  have hc := Bool.toNat_le c
  simp only [adcSum]
  omega

theorem adcResult_toNat (x y : Byte) (c : Bool) : (adcResult x y c).toNat = adcSum x y c % 256 := by
  simp [adcResult]

theorem ringOf_toNat (c : Bool) (v : Byte) : (ringOf c v).toNat = c.toNat * 256 + v.toNat := by
  have hc := Bool.toNat_le c
  simp only [ringOf, BitVec.toNat_ofNat]
  omega

@[simp] theorem ringByte_ringOf (c : Bool) (v : Byte) : ringByte (ringOf c v) = v := by
  apply BitVec.eq_of_toNat_eq
  simp only [ringByte, BitVec.extractLsb'_toNat, ringOf_toNat, Nat.shiftRight_zero]
  omega

theorem ringByte_toNat (r : Ring) : (ringByte r).toNat = r.toNat % 256 := by
  simp [ringByte, BitVec.extractLsb'_toNat]

theorem ringCarry_eq (r : Ring) : ringCarry r = decide (r.toNat / 256 = 1) := by
  have h : r.toNat < 512 := r.isLt
  have e : r.toNat / 256 = 0 ∨ r.toNat / 256 = 1 := by omega
  rcases e with e | e <;> simp [ringCarry, BitVec.getLsbD, Nat.testBit, Nat.shiftRight_eq_div_pow, e]

@[simp] theorem ringCarry_ringOf (c : Bool) (v : Byte) : ringCarry (ringOf c v) = c := by
  rw [ringCarry_eq, ringOf_toNat]
  have : (c.toNat * 256 + v.toNat) / 256 = c.toNat := by omega
  rw [this]
  cases c <;> rfl

/-- The flag pair of BRA, bit by bit: bit 1 is Z and bit 0 is C. -/
theorem flagPair_bits : ∀ z c : Bool, (flagPair z c).getLsbD 1 = z ∧ (flagPair z c).getLsbD 0 = c := by decide

@[simp] theorem CycleState.ofCode_code (k : CycleState) : CycleState.ofCode k.code = k := by cases k <;> rfl

theorem State.sr_toNat (s : State) : s.sr.toNat = s.cs.code.toNat * 4 + s.z.toNat * 2 + s.c.toNat := by
  have := s.cs.code.isLt
  have := Bool.toNat_le s.z
  have := Bool.toNat_le s.c
  simp only [State.sr, BitVec.toNat_ofNat]
  omega

theorem rotCount_lt (ctl : Nibble) : rotCount ctl < 8 := Nat.mod_lt _ (by decide)

end Sys2Proof.Machine
end

