-- ==== Sys2Proof/Laws/Memory.lean ====
section
/-! SUPPORT. The laws of the memory array: read after write, the canonical form kept by every operation, and equal reads
make equal canonical memories. -/

namespace Sys2Proof.Machine

@[simp] theorem Memory.unlisted_eq : Memory.unlisted = 0#8 := rfl

@[simp] theorem Memory.read_nil (a : Nat) : Memory.read [] a = 0#8 := rfl

theorem Memory.read_cons (k : Nat) (v : Byte) (m : Memory) (a : Nat) :
    Memory.read ((k, v) :: m) a = if k = a then v else m.read a := rfl

@[simp] theorem Memory.wf_nil : Memory.wf [] = true := rfl

theorem Memory.wfFrom_cons (lo k : Nat) (v : Byte) (m : Memory) :
    Memory.wfFrom lo ((k, v) :: m) = true ↔ lo ≤ k ∧ k < 256 ∧ v ≠ 0#8 ∧ Memory.wfFrom (k + 1) m = true := by
  show (decide (lo ≤ k) && decide (k < 256) && decide (v ≠ Memory.unlisted) && Memory.wfFrom (k + 1) m) = true ↔ _
  rw [Bool.and_eq_true, Bool.and_eq_true, Bool.and_eq_true, decide_eq_true_eq, decide_eq_true_eq, decide_eq_true_eq,
    and_assoc, and_assoc, Memory.unlisted_eq]

theorem Memory.wfFrom_mono {lo lo' : Nat} {m : Memory} (h : lo ≤ lo') (hm : Memory.wfFrom lo' m = true) :
    Memory.wfFrom lo m = true := by
  cases m with
  | nil => rfl
  | cons e m =>
    obtain ⟨k, v⟩ := e
    rw [Memory.wfFrom_cons] at hm ⊢
    exact ⟨by omega, hm.2⟩

/-- A canonical memory lists nothing below its bound, so such a cell reads as unlisted. -/
theorem Memory.read_below {lo a : Nat} {m : Memory} (hm : Memory.wfFrom lo m = true) (h : a < lo) : m.read a = 0#8 := by
  induction m generalizing lo with
  | nil => rfl
  | cons e m ih =>
    obtain ⟨k, v⟩ := e
    rw [Memory.wfFrom_cons] at hm
    rw [Memory.read_cons, if_neg (by omega)]
    exact ih hm.2.2.2 (by omega)

/-- Nothing is listed at or above 256. -/
theorem Memory.read_above {lo a : Nat} {m : Memory} (hm : Memory.wfFrom lo m = true) (h : 256 ≤ a) : m.read a = 0#8 := by
  induction m generalizing lo with
  | nil => rfl
  | cons e m ih =>
    obtain ⟨k, v⟩ := e
    rw [Memory.wfFrom_cons] at hm
    rw [Memory.read_cons, if_neg (by omega)]
    exact ih hm.2.2.2

/-! ### Read after write, on any list -/

@[simp] theorem Memory.read_erase (m : Memory) (a b : Nat) : (m.erase a).read b = if b = a then 0#8 else m.read b := by
  induction m with
  | nil => simp [Memory.erase]
  | cons e m ih =>
    obtain ⟨k, v⟩ := e
    unfold Memory.erase at ih ⊢
    by_cases hk : k = a
    · subst hk
      simp only [List.filter_cons, bne_self_eq_false, Bool.false_eq_true, if_false, ih, Memory.read_cons]
      split
      · rfl
      · rw [if_neg (fun h => by simp_all)]
    · have : (k != a) = true := by simp [hk]
      simp only [List.filter_cons, this, if_true, Memory.read_cons, ih]
      by_cases hb : k = b
      · subst hb; simp [hk]
      · simp [hb]

theorem Memory.read_insert (m : Memory) (a b : Nat) (v : Byte) (h : ∀ e ∈ m, e.1 ≠ a) :
    (m.insert a v).read b = if b = a then v else m.read b := by
  induction m with
  | nil => simp [Memory.insert, Memory.read_cons, eq_comm]
  | cons e m ih =>
    obtain ⟨k, w⟩ := e
    have hk : k ≠ a := h (k, w) (by simp)
    have ih := ih fun e he => h e (by simp [he])
    unfold Memory.insert
    split
    · simp [Memory.read_cons, eq_comm]
    · by_cases hb : k = b
      · subst hb; simp [Memory.read_cons, hk]
      · simp [Memory.read_cons, hb, ih]

theorem Memory.erase_ne {m : Memory} {a : Nat} : ∀ e ∈ m.erase a, e.1 ≠ a := by
  simp [Memory.erase]

/-- Read after write: the written cell holds the value, every other cell what it held. -/
@[simp] theorem Memory.read_write (m : Memory) (a b : Nat) (v : Byte) :
    (m.write a v).read b = if b = a then v else m.read b := by
  unfold Memory.write
  split
  · rename_i h; simp [h]
  · rw [Memory.read_insert _ _ _ _ Memory.erase_ne, Memory.read_erase]
    split <;> rfl

/-! ### The canonical form -/

theorem Memory.wfFrom_erase {lo : Nat} {m : Memory} (hm : Memory.wfFrom lo m = true) (a : Nat) :
    Memory.wfFrom lo (m.erase a) = true := by
  induction m generalizing lo with
  | nil => rfl
  | cons e m ih =>
    obtain ⟨k, v⟩ := e
    rw [Memory.wfFrom_cons] at hm
    have ih := ih hm.2.2.2
    unfold Memory.erase at ih ⊢
    by_cases hk : k = a
    · simpa [List.filter_cons, hk] using Memory.wfFrom_mono (by omega) ih
    · have : (k != a) = true := by simp [hk]
      rw [List.filter_cons, if_pos this, Memory.wfFrom_cons]
      exact ⟨hm.1, hm.2.1, hm.2.2.1, ih⟩

theorem Memory.wfFrom_insert {lo : Nat} {m : Memory} (hm : Memory.wfFrom lo m = true) {a : Nat} (hlo : lo ≤ a)
    (ha : a < 256) {v : Byte} (hv : v ≠ 0#8) (h : ∀ e ∈ m, e.1 ≠ a) : Memory.wfFrom lo (m.insert a v) = true := by
  induction m generalizing lo with
  | nil =>
    unfold Memory.insert
    rw [Memory.wfFrom_cons]
    exact ⟨hlo, ha, hv, rfl⟩
  | cons e m ih =>
    obtain ⟨k, w⟩ := e
    have hk : k ≠ a := h (k, w) (by simp)
    have hm' := hm
    rw [Memory.wfFrom_cons] at hm
    unfold Memory.insert
    split
    · rw [Memory.wfFrom_cons, Memory.wfFrom_cons]
      exact ⟨hlo, ha, hv, by omega, hm.2⟩
    · rw [Memory.wfFrom_cons]
      exact ⟨hm.1, hm.2.1, hm.2.2.1, ih hm.2.2.2 (by omega) fun e he => h e (by simp [he])⟩

/-- A write keeps the canonical form. -/
theorem Memory.wf_write {m : Memory} (hm : m.wf = true) {a : Nat} (ha : a < 256) (v : Byte) : (m.write a v).wf = true := by
  unfold Memory.write
  split
  · exact Memory.wfFrom_erase hm a
  · exact Memory.wfFrom_insert (Memory.wfFrom_erase hm a) (Nat.zero_le a) ha ‹_› Memory.erase_ne

theorem Memory.ofBytesFrom_cons (a : Nat) (b : Byte) (bs : List Byte) :
    Memory.ofBytesFrom a (b :: bs) =
      if b = 0#8 then Memory.ofBytesFrom (a + 1) bs else (a, b) :: Memory.ofBytesFrom (a + 1) bs := rfl

theorem Memory.wfFrom_ofBytesFrom (a : Nat) (bs : List Byte) (h : a + bs.length ≤ 256) :
    Memory.wfFrom a (Memory.ofBytesFrom a bs) = true := by
  induction bs generalizing a with
  | nil => rfl
  | cons b bs ih =>
    have hl : a + bs.length + 1 ≤ 256 := h
    have ih := ih (a + 1) (by omega)
    rw [Memory.ofBytesFrom_cons]
    split
    · exact Memory.wfFrom_mono (by omega) ih
    · rw [Memory.wfFrom_cons]
      exact ⟨le_refl a, by omega, ‹_›, ih⟩

/-- A loaded image is in canonical form. -/
theorem Memory.wf_ofBytesFrom (bs : List Byte) (h : bs.length ≤ 256) : (Memory.ofBytesFrom 0 bs).wf = true :=
  Memory.wfFrom_ofBytesFrom 0 bs (by omega)

/-- Cell `a + j` of the memory laid out from `a` is byte number `j`; the cells before `a` are unlisted. -/
theorem Memory.read_ofBytesFrom (a k : Nat) (bs : List Byte) :
    (Memory.ofBytesFrom a bs).read k = if a ≤ k then bs.getD (k - a) 0 else 0#8 := by
  induction bs generalizing a with
  | nil => simp [Memory.ofBytesFrom]
  | cons b bs ih =>
    have head : (Memory.ofBytesFrom a (b :: bs)).read k = if a = k then b else (Memory.ofBytesFrom (a + 1) bs).read k := by
      rw [Memory.ofBytesFrom_cons]
      split
      · rename_i hb
        by_cases hk : a = k
        · subst hk; rw [ih]; simp [hb]
        · simp [hk]
      · rfl
    rw [head, ih]
    rcases Nat.lt_trichotomy a k with lt | eq | gt
    · obtain ⟨j, rfl⟩ : ∃ j, k = a + 1 + j := ⟨k - (a + 1), by omega⟩
      have e1 : a + 1 + j - a = j + 1 := by omega
      rw [if_neg (by omega), if_pos (by omega), if_pos (by omega), e1]
      simp
    · subst eq; simp
    · rw [if_neg (by omega), if_neg (by omega), if_neg (by omega)]

theorem Memory.ext_from {lo : Nat} {m n : Memory} (hm : Memory.wfFrom lo m = true) (hn : Memory.wfFrom lo n = true)
    (h : ∀ a, m.read a = n.read a) : m = n := by
  induction m generalizing lo n with
  | nil =>
    cases n with
    | nil => rfl
    | cons e n =>
      obtain ⟨k, v⟩ := e
      rw [Memory.wfFrom_cons] at hn
      exact absurd (by simpa [Memory.read_cons] using (h k).symm) hn.2.2.1
  | cons e m ih =>
    obtain ⟨k, v⟩ := e
    have hm' : Memory.wfFrom k ((k, v) :: m) = true := by
      rw [Memory.wfFrom_cons] at hm ⊢; exact ⟨le_refl k, hm.2⟩
    rw [Memory.wfFrom_cons] at hm
    cases n with
    | nil => exact absurd (by simpa [Memory.read_cons] using h k) hm.2.2.1
    | cons f n =>
      obtain ⟨j, w⟩ := f
      have hn' : Memory.wfFrom j ((j, w) :: n) = true := by
        rw [Memory.wfFrom_cons] at hn ⊢; exact ⟨le_refl j, hn.2⟩
      rw [Memory.wfFrom_cons] at hn
      have hkj : k = j := by
        rcases Nat.lt_trichotomy k j with lt | eq | gt
        · have := h k
          rw [Memory.read_below hn' lt, Memory.read_cons, if_pos rfl] at this
          exact absurd this hm.2.2.1
        · exact eq
        · have := h j
          rw [Memory.read_below hm' gt, Memory.read_cons, if_pos rfl] at this
          exact absurd this.symm hn.2.2.1
      subst hkj
      have hvw : v = w := by simpa [Memory.read_cons] using h k
      have rest : m = n := ih hm.2.2.2 hn.2.2.2 fun a => by
        by_cases ha : k = a
        · subst ha
          rw [Memory.read_below hm.2.2.2 (Nat.lt_succ_self k), Memory.read_below hn.2.2.2 (Nat.lt_succ_self k)]
        · simpa [Memory.read_cons, ha] using h a
      rw [hvw, rest]

/-- Equal memories are equal data: two canonical memories with the same cells are the same list. -/
theorem Memory.ext_of_read {m n : Memory} (hm : m.wf = true) (hn : n.wf = true) (h : ∀ a, m.read a = n.read a) : m = n :=
  Memory.ext_from hm hn h

end Sys2Proof.Machine
end

