-- ==== Sys2Proof/Laws/State.lean ====
section
/-! SUPPORT. One lemma per field per update of State, true by rfl: no later proof unfolds a record update. The two accessors of
an indexed field, `State.reg` and `State.cell`, have a lemma for every update that leaves the field alone; the updates that
write it are in Sys2Proof/Laws/Ops.lean. -/

namespace Sys2Proof.Machine

@[simp] theorem State.setCell_regs (s : State) (a v : Byte) : (s.setCell a v).regs = s.regs := rfl
@[simp] theorem State.setCell_pc (s : State) (a v : Byte) : (s.setCell a v).pc = s.pc := rfl
@[simp] theorem State.setCell_ir (s : State) (a v : Byte) : (s.setCell a v).ir = s.ir := rfl
@[simp] theorem State.setCell_cs (s : State) (a v : Byte) : (s.setCell a v).cs = s.cs := rfl
@[simp] theorem State.setCell_z (s : State) (a v : Byte) : (s.setCell a v).z = s.z := rfl
@[simp] theorem State.setCell_c (s : State) (a v : Byte) : (s.setCell a v).c = s.c := rfl
@[simp] theorem State.setCell_d (s : State) (a v : Byte) : (s.setCell a v).d = s.d := rfl
@[simp] theorem State.setCell_mem (s : State) (a v : Byte) : (s.setCell a v).mem = s.mem.write a.toNat v := rfl
@[simp] theorem State.reg_setCell (s : State) (a v : Byte) (q : RegIdx) : (s.setCell a v).reg q = s.reg q := rfl

@[simp] theorem State.setReg_regs (s : State) (r : RegIdx) (v : Byte) : (s.setReg r v).regs = s.regs.set r.toNat v r.isLt := rfl
@[simp] theorem State.setReg_pc (s : State) (r : RegIdx) (v : Byte) : (s.setReg r v).pc = s.pc := rfl
@[simp] theorem State.setReg_ir (s : State) (r : RegIdx) (v : Byte) : (s.setReg r v).ir = s.ir := rfl
@[simp] theorem State.setReg_cs (s : State) (r : RegIdx) (v : Byte) : (s.setReg r v).cs = s.cs := rfl
@[simp] theorem State.setReg_z (s : State) (r : RegIdx) (v : Byte) : (s.setReg r v).z = s.z := rfl
@[simp] theorem State.setReg_c (s : State) (r : RegIdx) (v : Byte) : (s.setReg r v).c = s.c := rfl
@[simp] theorem State.setReg_d (s : State) (r : RegIdx) (v : Byte) : (s.setReg r v).d = s.d := rfl
@[simp] theorem State.setReg_mem (s : State) (r : RegIdx) (v : Byte) : (s.setReg r v).mem = s.mem := rfl
@[simp] theorem State.cell_setReg (s : State) (r : RegIdx) (v : Byte) (x : Byte) : (s.setReg r v).cell x = s.cell x := rfl

@[simp] theorem State.setZ_regs (s : State) (b : Bool) : (s.setZ b).regs = s.regs := rfl
@[simp] theorem State.setZ_pc (s : State) (b : Bool) : (s.setZ b).pc = s.pc := rfl
@[simp] theorem State.setZ_ir (s : State) (b : Bool) : (s.setZ b).ir = s.ir := rfl
@[simp] theorem State.setZ_cs (s : State) (b : Bool) : (s.setZ b).cs = s.cs := rfl
@[simp] theorem State.setZ_z (s : State) (b : Bool) : (s.setZ b).z = b := rfl
@[simp] theorem State.setZ_c (s : State) (b : Bool) : (s.setZ b).c = s.c := rfl
@[simp] theorem State.setZ_d (s : State) (b : Bool) : (s.setZ b).d = s.d := rfl
@[simp] theorem State.setZ_mem (s : State) (b : Bool) : (s.setZ b).mem = s.mem := rfl
@[simp] theorem State.reg_setZ (s : State) (b : Bool) (q : RegIdx) : (s.setZ b).reg q = s.reg q := rfl
@[simp] theorem State.cell_setZ (s : State) (b : Bool) (x : Byte) : (s.setZ b).cell x = s.cell x := rfl

@[simp] theorem State.setC_regs (s : State) (b : Bool) : (s.setC b).regs = s.regs := rfl
@[simp] theorem State.setC_pc (s : State) (b : Bool) : (s.setC b).pc = s.pc := rfl
@[simp] theorem State.setC_ir (s : State) (b : Bool) : (s.setC b).ir = s.ir := rfl
@[simp] theorem State.setC_cs (s : State) (b : Bool) : (s.setC b).cs = s.cs := rfl
@[simp] theorem State.setC_z (s : State) (b : Bool) : (s.setC b).z = s.z := rfl
@[simp] theorem State.setC_c (s : State) (b : Bool) : (s.setC b).c = b := rfl
@[simp] theorem State.setC_d (s : State) (b : Bool) : (s.setC b).d = s.d := rfl
@[simp] theorem State.setC_mem (s : State) (b : Bool) : (s.setC b).mem = s.mem := rfl
@[simp] theorem State.reg_setC (s : State) (b : Bool) (q : RegIdx) : (s.setC b).reg q = s.reg q := rfl
@[simp] theorem State.cell_setC (s : State) (b : Bool) (x : Byte) : (s.setC b).cell x = s.cell x := rfl

@[simp] theorem State.setPc_regs (s : State) (a : Byte) : (s.setPc a).regs = s.regs := rfl
@[simp] theorem State.setPc_pc (s : State) (a : Byte) : (s.setPc a).pc = a := rfl
@[simp] theorem State.setPc_ir (s : State) (a : Byte) : (s.setPc a).ir = s.ir := rfl
@[simp] theorem State.setPc_cs (s : State) (a : Byte) : (s.setPc a).cs = s.cs := rfl
@[simp] theorem State.setPc_z (s : State) (a : Byte) : (s.setPc a).z = s.z := rfl
@[simp] theorem State.setPc_c (s : State) (a : Byte) : (s.setPc a).c = s.c := rfl
@[simp] theorem State.setPc_d (s : State) (a : Byte) : (s.setPc a).d = s.d := rfl
@[simp] theorem State.setPc_mem (s : State) (a : Byte) : (s.setPc a).mem = s.mem := rfl
@[simp] theorem State.reg_setPc (s : State) (a : Byte) (q : RegIdx) : (s.setPc a).reg q = s.reg q := rfl
@[simp] theorem State.cell_setPc (s : State) (a : Byte) (x : Byte) : (s.setPc a).cell x = s.cell x := rfl

@[simp] theorem State.setCs_regs (s : State) (k : CycleState) : (s.setCs k).regs = s.regs := rfl
@[simp] theorem State.setCs_pc (s : State) (k : CycleState) : (s.setCs k).pc = s.pc := rfl
@[simp] theorem State.setCs_ir (s : State) (k : CycleState) : (s.setCs k).ir = s.ir := rfl
@[simp] theorem State.setCs_cs (s : State) (k : CycleState) : (s.setCs k).cs = k := rfl
@[simp] theorem State.setCs_z (s : State) (k : CycleState) : (s.setCs k).z = s.z := rfl
@[simp] theorem State.setCs_c (s : State) (k : CycleState) : (s.setCs k).c = s.c := rfl
@[simp] theorem State.setCs_d (s : State) (k : CycleState) : (s.setCs k).d = s.d := rfl
@[simp] theorem State.setCs_mem (s : State) (k : CycleState) : (s.setCs k).mem = s.mem := rfl
@[simp] theorem State.reg_setCs (s : State) (k : CycleState) (q : RegIdx) : (s.setCs k).reg q = s.reg q := rfl
@[simp] theorem State.cell_setCs (s : State) (k : CycleState) (x : Byte) : (s.setCs k).cell x = s.cell x := rfl

@[simp] theorem State.setIr_regs (s : State) (w : Word) : (s.setIr w).regs = s.regs := rfl
@[simp] theorem State.setIr_pc (s : State) (w : Word) : (s.setIr w).pc = s.pc := rfl
@[simp] theorem State.setIr_ir (s : State) (w : Word) : (s.setIr w).ir = w := rfl
@[simp] theorem State.setIr_cs (s : State) (w : Word) : (s.setIr w).cs = s.cs := rfl
@[simp] theorem State.setIr_z (s : State) (w : Word) : (s.setIr w).z = s.z := rfl
@[simp] theorem State.setIr_c (s : State) (w : Word) : (s.setIr w).c = s.c := rfl
@[simp] theorem State.setIr_d (s : State) (w : Word) : (s.setIr w).d = s.d := rfl
@[simp] theorem State.setIr_mem (s : State) (w : Word) : (s.setIr w).mem = s.mem := rfl
@[simp] theorem State.reg_setIr (s : State) (w : Word) (q : RegIdx) : (s.setIr w).reg q = s.reg q := rfl
@[simp] theorem State.cell_setIr (s : State) (w : Word) (x : Byte) : (s.setIr w).cell x = s.cell x := rfl

@[simp] theorem State.setScratch_regs (s : State) (e : Scratch) : (s.setScratch e).regs = s.regs := rfl
@[simp] theorem State.setScratch_pc (s : State) (e : Scratch) : (s.setScratch e).pc = s.pc := rfl
@[simp] theorem State.setScratch_ir (s : State) (e : Scratch) : (s.setScratch e).ir = s.ir := rfl
@[simp] theorem State.setScratch_cs (s : State) (e : Scratch) : (s.setScratch e).cs = s.cs := rfl
@[simp] theorem State.setScratch_z (s : State) (e : Scratch) : (s.setScratch e).z = s.z := rfl
@[simp] theorem State.setScratch_c (s : State) (e : Scratch) : (s.setScratch e).c = s.c := rfl
@[simp] theorem State.setScratch_d (s : State) (e : Scratch) : (s.setScratch e).d = e := rfl
@[simp] theorem State.setScratch_mem (s : State) (e : Scratch) : (s.setScratch e).mem = s.mem := rfl
@[simp] theorem State.reg_setScratch (s : State) (e : Scratch) (q : RegIdx) : (s.setScratch e).reg q = s.reg q := rfl
@[simp] theorem State.cell_setScratch (s : State) (e : Scratch) (x : Byte) : (s.setScratch e).cell x = s.cell x := rfl

@[simp] theorem State.result_regs (s : State) (r : RegIdx) (v : Byte) : (s.result r v).regs = s.regs.set r.toNat v r.isLt := rfl
@[simp] theorem State.result_pc (s : State) (r : RegIdx) (v : Byte) : (s.result r v).pc = s.pc := rfl
@[simp] theorem State.result_ir (s : State) (r : RegIdx) (v : Byte) : (s.result r v).ir = s.ir := rfl
@[simp] theorem State.result_cs (s : State) (r : RegIdx) (v : Byte) : (s.result r v).cs = s.cs := rfl
@[simp] theorem State.result_z (s : State) (r : RegIdx) (v : Byte) : (s.result r v).z = decide (v = 0) := rfl
@[simp] theorem State.result_c (s : State) (r : RegIdx) (v : Byte) : (s.result r v).c = s.c := rfl
@[simp] theorem State.result_d (s : State) (r : RegIdx) (v : Byte) : (s.result r v).d = s.d := rfl
@[simp] theorem State.result_mem (s : State) (r : RegIdx) (v : Byte) : (s.result r v).mem = s.mem := rfl
@[simp] theorem State.cell_result (s : State) (r : RegIdx) (v : Byte) (x : Byte) : (s.result r v).cell x = s.cell x := rfl

@[simp] theorem State.store_regs (s : State) (a v : Byte) : (s.store a v).regs = s.regs := rfl
@[simp] theorem State.store_pc (s : State) (a v : Byte) : (s.store a v).pc = s.pc := rfl
@[simp] theorem State.store_ir (s : State) (a v : Byte) : (s.store a v).ir = s.ir := rfl
@[simp] theorem State.store_cs (s : State) (a v : Byte) : (s.store a v).cs = s.cs := rfl
@[simp] theorem State.store_z (s : State) (a v : Byte) : (s.store a v).z = decide (v = 0) := rfl
@[simp] theorem State.store_c (s : State) (a v : Byte) : (s.store a v).c = s.c := rfl
@[simp] theorem State.store_d (s : State) (a v : Byte) : (s.store a v).d = s.d := rfl
@[simp] theorem State.store_mem (s : State) (a v : Byte) : (s.store a v).mem = s.mem.write a.toNat v := rfl
@[simp] theorem State.reg_store (s : State) (a v : Byte) (q : RegIdx) : (s.store a v).reg q = s.reg q := rfl

@[simp] theorem State.push_regs (s : State) (v : Byte) : (s.push v).regs = s.regs.set spIdx.toNat (s.sp - 1) spIdx.isLt := rfl
@[simp] theorem State.push_pc (s : State) (v : Byte) : (s.push v).pc = s.pc := rfl
@[simp] theorem State.push_ir (s : State) (v : Byte) : (s.push v).ir = s.ir := rfl
@[simp] theorem State.push_cs (s : State) (v : Byte) : (s.push v).cs = s.cs := rfl
@[simp] theorem State.push_z (s : State) (v : Byte) : (s.push v).z = s.z := rfl
@[simp] theorem State.push_c (s : State) (v : Byte) : (s.push v).c = s.c := rfl
@[simp] theorem State.push_d (s : State) (v : Byte) : (s.push v).d = s.d := rfl
@[simp] theorem State.push_mem (s : State) (v : Byte) : (s.push v).mem = s.mem.write s.sp.toNat v := rfl

@[simp] theorem State.pop_regs (s : State) : (s.pop).regs = s.regs.set spIdx.toNat (s.sp + 1) spIdx.isLt := rfl
@[simp] theorem State.pop_pc (s : State) : (s.pop).pc = s.pc := rfl
@[simp] theorem State.pop_ir (s : State) : (s.pop).ir = s.ir := rfl
@[simp] theorem State.pop_cs (s : State) : (s.pop).cs = s.cs := rfl
@[simp] theorem State.pop_z (s : State) : (s.pop).z = s.z := rfl
@[simp] theorem State.pop_c (s : State) : (s.pop).c = s.c := rfl
@[simp] theorem State.pop_d (s : State) : (s.pop).d = s.d := rfl
@[simp] theorem State.pop_mem (s : State) : (s.pop).mem = s.mem := rfl
@[simp] theorem State.cell_pop (s : State) (x : Byte) : (s.pop).cell x = s.cell x := rfl

end Sys2Proof.Machine
end

