-- ==== Sys2Proof/Laws/Ops.lean ====
section
/-! SUPPORT. What each shared operation does, said once: the indexed reads after the indexed writes, the composite
operations through the two accessors, and the two ends of an Execute. -/

namespace Sys2Proof.Machine

@[simp] theorem spIdx_eq : spIdx = 15#4 := rfl

@[simp] theorem State.sp_eq (s : State) : s.sp = s.reg 15#4 := rfl

@[simp] theorem State.reg_setReg (s : State) (r q : RegIdx) (v : Byte) :
    (s.setReg r v).reg q = if q = r then v else s.reg q := by
  simp only [State.reg, State.setReg, Vector.getElem_set, BitVec.toNat_inj]
  simp only [eq_comm]

@[simp] theorem State.reg_setSp (s : State) (q : RegIdx) (v : Byte) :
    (s.setSp v).reg q = if q = 15#4 then v else s.reg q := State.reg_setReg s 15#4 q v

@[simp] theorem State.cell_setCell (s : State) (a b v : Byte) :
    (s.setCell a v).cell b = if b = a then v else s.cell b := by
  simp only [State.cell, State.setCell, Memory.read_write, BitVec.toNat_inj]

@[simp] theorem State.cell_setSp (s : State) (a v : Byte) : (s.setSp v).cell a = s.cell a := rfl

/-- `result` writes one register and Z. -/
@[simp] theorem State.reg_result (s : State) (r q : RegIdx) (v : Byte) :
    (s.result r v).reg q = if q = r then v else s.reg q := State.reg_setReg s r q v

/-- `store` writes one cell and Z. -/
@[simp] theorem State.cell_store (s : State) (a b v : Byte) :
    (s.store a v).cell b = if b = a then v else s.cell b := State.cell_setCell s a b v

/-- `push` writes the cell `sp` addresses … -/
@[simp] theorem State.cell_push (s : State) (b v : Byte) :
    (s.push v).cell b = if b = s.reg 15#4 then v else s.cell b := State.cell_setCell s (s.reg 15#4) b v

/-- … and decrements `sp`. -/
@[simp] theorem State.reg_push (s : State) (q : RegIdx) (v : Byte) :
    (s.push v).reg q = if q = 15#4 then s.reg 15#4 - 1 else s.reg q :=
  State.reg_setReg (s.setCell (s.reg 15#4) v) 15#4 q (s.reg 15#4 - 1)

/-- `pop` increments `sp`. -/
@[simp] theorem State.reg_pop (s : State) (q : RegIdx) :
    s.pop.reg q = if q = 15#4 then s.reg 15#4 + 1 else s.reg q := State.reg_setReg s 15#4 q (s.reg 15#4 + 1)

/-! ### The two ends of an Execute -/

theorem State.retire_eq (s : State) : s.retire = .next ((s.setPc (s.pc + 2)).setCs .fetch) := rfl

theorem State.transfer_eq (s : State) (a : Byte) : s.transfer a = .next ((s.setPc a).setCs .fetch) := rfl

/-- An instruction that ends with the epilogue answers exactly this state. -/
@[simp] theorem State.retire_eq_next {s t : State} : s.retire = .next t ↔ (s.setPc (s.pc + 2)).setCs .fetch = t := by
  simp [State.retire]

/-- A control transfer answers exactly this state. -/
@[simp] theorem State.transfer_eq_next {s t : State} {a : Byte} :
    s.transfer a = .next t ↔ (s.setPc a).setCs .fetch = t := by
  simp [State.transfer]

/-- A sequence answers a state exactly when its first part does and the rest does from there. -/
theorem andThen_eq_next {r : Result} {f : State → Result} {t : State} :
    andThen r f = .next t ↔ ∃ s, r = .next s ∧ f s = .next t := by
  cases r <;> simp [andThen]

@[simp] theorem andThen_next (s : State) (f : State → Result) : andThen (.next s) f = f s := rfl

/-! ### Two states with the same registers -/

/-- The register file is determined by the 16 reads. -/
theorem regs_ext {s t : State} (h : ∀ q, s.reg q = t.reg q) : s.regs = t.regs := by
  apply Vector.ext
  intro i hi
  have := h (BitVec.ofNat 4 i)
  simpa [State.reg, Nat.mod_eq_of_lt (show i < 16 from hi)] using this

/-! ### The canonical form is kept by every operation that writes memory -/

theorem State.wf_setCell {s : State} (h : s.mem.wf = true) (a v : Byte) : (s.setCell a v).mem.wf = true :=
  Memory.wf_write h a.isLt v

theorem State.wf_store {s : State} (h : s.mem.wf = true) (a v : Byte) : (s.store a v).mem.wf = true :=
  Memory.wf_write h a.isLt v

theorem State.wf_push {s : State} (h : s.mem.wf = true) (v : Byte) : (s.push v).mem.wf = true :=
  Memory.wf_write h s.sp.isLt v

theorem State.wf_placeWord {s : State} (h : s.mem.wf = true) (a : Byte) (w : Word) : (s.placeWord a w).mem.wf = true :=
  Memory.wf_write (Memory.wf_write h a.isLt _) (a + 1).isLt _

theorem State.wf_reset : State.reset.mem.wf = true := rfl

end Sys2Proof.Machine
end

