-- ==== Sys2Proof/Laws/PerInstr.lean ====
section
/-! SUPPORT. Laws of an instruction as syntax, one lemma per constructor. The family ScratchForm: every instruction is well
formed (R60, R62), what Decode writes for it into `d[0..3]` is well formed (R67), and Execute reads the same instruction back. -/

namespace Sys2Proof.Laws.ScratchForm

/-- Nothing of an instruction is lost between Decode and Execute. -/
def Statement (i : Instr) : Prop :=
  i.wellFormed = true ∧ (scratchOf i).wellFormed = true ∧ instrOfScratch (scratchOf i) = i

/-- A field narrower than 8 bits comes back from its scratch field. -/
theorem setWidth_nibble (r : Nibble) : (r.setWidth 8).setWidth 4 = r := by
  apply BitVec.eq_of_toNat_eq
  simp only [BitVec.toNat_setWidth]
  omega

theorem setWidth_pair (p : FlagPair) : (p.setWidth 8).setWidth 2 = p := by
  apply BitVec.eq_of_toNat_eq
  simp only [BitVec.toNat_setWidth]
  omega

/-- Every value of a field is in its range (R60), and so is what its scratch field holds. -/
theorem nibble_ok (r : Nibble) : decide (r.toNat ≤ 15) = true := decide_eq_true (Nat.lt_succ_iff.mp r.isLt)

theorem pair_ok (p : FlagPair) : decide (p.toNat ≤ 3) = true := decide_eq_true (Nat.lt_succ_iff.mp p.isLt)

theorem byte_ok (b : Byte) : decide (b.toNat ≤ 255) = true := decide_eq_true (Nat.lt_succ_iff.mp b.isLt)

theorem scratch_nibble_ok (r : Nibble) : decide ((r.setWidth 8 : Byte).toNat ≤ 15) = true := by
  rw [BitVec.toNat_setWidth]
  exact decide_eq_true ((Nat.mod_le _ _).trans (Nat.lt_succ_iff.mp r.isLt))

theorem scratch_pair_ok (p : FlagPair) : decide ((p.setWidth 8 : Byte).toNat ≤ 3) = true := by
  rw [BitVec.toNat_setWidth]
  exact decide_eq_true ((Nat.mod_le _ _).trans (Nat.lt_succ_iff.mp p.isLt))

/-- R60, R62: every instruction is well formed. -/
theorem wellFormed_instr (i : Instr) : i.wellFormed = true := by
  cases i <;> simp only [Instr.wellFormed, nibble_ok, pair_ok, byte_ok, Bool.and_self]

/-- R67: what Decode writes for an instruction is well formed. -/
theorem wellFormed_scratchOf (i : Instr) : (scratchOf i).wellFormed = true := by
  cases i <;>
    simp [Scratch.wellFormed, scratchOf, Instr.opcode, scratch_nibble_ok, scratch_pair_ok,
      -BitVec.toNat_setWidth, -decide_eq_true_eq]

/-- Execute reads back the instruction that Decode wrote. -/
theorem instrOfScratch_scratchOf (i : Instr) : instrOfScratch (scratchOf i) = i := by
  cases i
  case mdf select want =>
    show Instr.mdf ((select.setWidth 8).setWidth 2) ((want.setWidth 8).setWidth 2) = _
    simp only [setWidth_pair]
  all_goals simp only [instrOfScratch, scratchOf, Instr.opcode, setWidth_nibble, setWidth_pair, Opcode.ofNibble,
    BitVec.reduceSetWidth]

theorem hlt : Statement .hlt :=
  ⟨wellFormed_instr _, wellFormed_scratchOf _, instrOfScratch_scratchOf _⟩

theorem adc (r a b : RegIdx) : Statement (.adc r a b) :=
  ⟨wellFormed_instr _, wellFormed_scratchOf _, instrOfScratch_scratchOf _⟩

theorem and (r a b : RegIdx) : Statement (.and r a b) :=
  ⟨wellFormed_instr _, wellFormed_scratchOf _, instrOfScratch_scratchOf _⟩

theorem xor (r a b : RegIdx) : Statement (.xor r a b) :=
  ⟨wellFormed_instr _, wellFormed_scratchOf _, instrOfScratch_scratchOf _⟩

theorem rot (r a : RegIdx) (ctl : Nibble) : Statement (.rot r a ctl) :=
  ⟨wellFormed_instr _, wellFormed_scratchOf _, instrOfScratch_scratchOf _⟩

theorem ldi (r : RegIdx) (imm : Byte) : Statement (.ldi r imm) :=
  ⟨wellFormed_instr _, wellFormed_scratchOf _, instrOfScratch_scratchOf _⟩

theorem ldm (r : RegIdx) (addr : Byte) : Statement (.ldm r addr) :=
  ⟨wellFormed_instr _, wellFormed_scratchOf _, instrOfScratch_scratchOf _⟩

theorem ldr (r a : RegIdx) : Statement (.ldr r a) :=
  ⟨wellFormed_instr _, wellFormed_scratchOf _, instrOfScratch_scratchOf _⟩

theorem sto (r : RegIdx) (addr : Byte) : Statement (.sto r addr) :=
  ⟨wellFormed_instr _, wellFormed_scratchOf _, instrOfScratch_scratchOf _⟩

theorem str (r a : RegIdx) : Statement (.str r a) :=
  ⟨wellFormed_instr _, wellFormed_scratchOf _, instrOfScratch_scratchOf _⟩

theorem psh (r : RegIdx) : Statement (.psh r) :=
  ⟨wellFormed_instr _, wellFormed_scratchOf _, instrOfScratch_scratchOf _⟩

theorem pop (r : RegIdx) : Statement (.pop r) :=
  ⟨wellFormed_instr _, wellFormed_scratchOf _, instrOfScratch_scratchOf _⟩

theorem jsr (target : Byte) : Statement (.jsr target) :=
  ⟨wellFormed_instr _, wellFormed_scratchOf _, instrOfScratch_scratchOf _⟩

theorem ret : Statement .ret :=
  ⟨wellFormed_instr _, wellFormed_scratchOf _, instrOfScratch_scratchOf _⟩

theorem bra (select want : FlagPair) (target : Byte) : Statement (.bra select want target) :=
  ⟨wellFormed_instr _, wellFormed_scratchOf _, instrOfScratch_scratchOf _⟩

theorem mdf (select want : FlagPair) : Statement (.mdf select want) :=
  ⟨wellFormed_instr _, wellFormed_scratchOf _, instrOfScratch_scratchOf _⟩

/-- The family, over all instructions. -/
theorem all (i : Instr) : Statement i :=
  match i with
  | .hlt => hlt
  | .adc r a b => adc r a b
  | .and r a b => and r a b
  | .xor r a b => xor r a b
  | .rot r a ctl => rot r a ctl
  | .ldi r imm => ldi r imm
  | .ldm r addr => ldm r addr
  | .ldr r a => ldr r a
  | .sto r addr => sto r addr
  | .str r a => str r a
  | .psh r => psh r
  | .pop r => pop r
  | .jsr target => jsr target
  | .ret => ret
  | .bra select want target => bra select want target
  | .mdf select want => mdf select want

end Sys2Proof.Laws.ScratchForm
end

