-- ==== Sys2Proof/Laws/Step.lean ====
section
/-! SUPPORT. What one step can be, said once; the fields of the Fetch and Decode sub-steps; the parametric machine at the
machine's own parameters; and the induction over a launched run. -/

namespace Sys2Proof.Machine

/-- If a step answers `t`, it was one of the four sub-steps (R71). -/
theorem step_cases {s t : State} (h : step s = .next t) :
    (s.cs = .fetch ∧ t = fetchPhase s) ∨ (s.cs = .decode ∧ t = decodePhase s) ∨
    (s.cs = .execute ∧ exec (pendingInstr s) s = .next t) ∨ (s.cs = .halt ∧ t = s) := by
  unfold step subStepOver at h
  cases hc : s.cs with
  | fetch => rw [hc] at h; exact .inl ⟨rfl, by simpa using h.symm⟩
  | decode => rw [hc] at h; exact .inr (.inl ⟨rfl, by simpa using h.symm⟩)
  | execute => rw [hc] at h; exact .inr (.inr (.inl ⟨rfl, h⟩))
  | halt => rw [hc] at h; exact .inr (.inr (.inr ⟨rfl, by simpa using h.symm⟩))

theorem step_fetch {s : State} (h : s.cs = .fetch) : step s = .next (fetchPhase s) := by simp [step, subStepOver, h]

theorem step_decode {s : State} (h : s.cs = .decode) : step s = .next (decodePhase s) := by simp [step, subStepOver, h]

theorem step_execute {s : State} (h : s.cs = .execute) : step s = exec (pendingInstr s) s := by simp [step, subStepOver, h]

theorem step_halt {s : State} (h : s.cs = .halt) : step s = .next s := by simp [step, subStepOver, h]

/-! ### Runs -/

@[simp] theorem runSteps_zero (s : State) : runSteps 0 s = .next s := rfl

/-- One more step of a run: a step, then the rest from where it leads. -/
theorem runSteps_succ (n : Nat) (s : State) : runSteps (n + 1) s = andThen (step s) (runSteps n) := rfl

/-- The host's run of this machine. -/
theorem core_run_eq_runSteps (n : Nat) (s : State) : Sys2Proof.core.run n s = runSteps n s := by
  induction n generalizing s with
  | zero => rfl
  | succ n ih =>
    refine (Host.Core.run.eq_2 Sys2Proof.core s n).trans ?_
    rw [runSteps_succ]
    cases hs : step s with
    | next t =>
      have e : Sys2Proof.core.step s = .next t := hs
      rw [e]
      exact ih t
    | fault f => cases f
    | refused r =>
      have e : Sys2Proof.core.step s = .refused r := hs
      rw [e]
      rfl

/-- A step that stores elsewhere, before steps that store elsewhere. -/
theorem NoStoreTo.cons {a : Byte} {n : Nat} {s t : State} (hs : step s = .next t)
    (h : s.cs = .execute → storeAddress s (pendingInstr s) ≠ some a) (ht : NoStoreTo a n t) : NoStoreTo a (n + 1) s :=
  ⟨h, fun u hu => by
    rw [hs] at hu
    cases hu
    exact ht⟩

/-! ### Fetch and Decode, field by field -/

@[simp] theorem fetchPhase_regs (s : State) : (fetchPhase s).regs = s.regs := rfl
@[simp] theorem fetchPhase_pc (s : State) : (fetchPhase s).pc = s.pc := rfl
@[simp] theorem fetchPhase_ir (s : State) : (fetchPhase s).ir = fetchWord s := rfl
@[simp] theorem fetchPhase_cs (s : State) : (fetchPhase s).cs = .decode := rfl
@[simp] theorem fetchPhase_z (s : State) : (fetchPhase s).z = s.z := rfl
@[simp] theorem fetchPhase_c (s : State) : (fetchPhase s).c = s.c := rfl
@[simp] theorem fetchPhase_d (s : State) : (fetchPhase s).d = s.d := rfl
@[simp] theorem fetchPhase_mem (s : State) : (fetchPhase s).mem = s.mem := rfl
@[simp] theorem fetchPhase_reg (s : State) (q : RegIdx) : (fetchPhase s).reg q = s.reg q := rfl
@[simp] theorem fetchPhase_cell (s : State) (a : Byte) : (fetchPhase s).cell a = s.cell a := rfl
@[simp] theorem fetchWord_fetchPhase (s : State) : fetchWord (fetchPhase s) = fetchWord s := rfl

@[simp] theorem decodePhase_regs (s : State) : (decodePhase s).regs = s.regs := rfl
@[simp] theorem decodePhase_pc (s : State) : (decodePhase s).pc = s.pc := rfl
@[simp] theorem decodePhase_ir (s : State) : (decodePhase s).ir = s.ir := rfl
@[simp] theorem decodePhase_cs (s : State) : (decodePhase s).cs = .execute := rfl
@[simp] theorem decodePhase_z (s : State) : (decodePhase s).z = s.z := rfl
@[simp] theorem decodePhase_c (s : State) : (decodePhase s).c = s.c := rfl
@[simp] theorem decodePhase_d (s : State) : (decodePhase s).d = scratchOf (decodeWord s.ir) := rfl
@[simp] theorem decodePhase_mem (s : State) : (decodePhase s).mem = s.mem := rfl
@[simp] theorem decodePhase_reg (s : State) (q : RegIdx) : (decodePhase s).reg q = s.reg q := rfl
@[simp] theorem decodePhase_cell (s : State) (a : Byte) : (decodePhase s).cell a = s.cell a := rfl
@[simp] theorem fetchWord_decodePhase (s : State) : fetchWord (decodePhase s) = fetchWord s := rfl

/-- Execute runs the instruction whose fields `d[0..3]` hold. -/
theorem pendingInstr_of_d {s : State} {i : Instr} (h : s.d = scratchOf i) : pendingInstr s = i := by
  rw [pendingInstr, h]
  exact (Laws.ScratchForm.all i).2.2

/-! ### A word placed where it is fetched -/

/-- The word placed at `a` is the word read there, at the top of memory too, since `a` and `a + 1` are two cells (R35). -/
theorem State.wordAt_placeWord (s : State) (a : Byte) (w : Word) : (s.placeWord a w).wordAt a = w := by
  have ne : a ≠ a + 1 := fun h => by
    bv_omega
  simp only [State.wordAt, State.placeWord, State.cell_setCell, if_pos, if_neg ne, wordOfBytes_hi_lo]

@[simp] theorem readyToExecute_regs (s : State) (w : Word) : (readyToExecute s w).regs = s.regs := by
  simp [readyToExecute, State.placeWord]

@[simp] theorem readyToExecute_pc (s : State) (w : Word) : (readyToExecute s w).pc = s.pc := by
  simp [readyToExecute, State.placeWord]

@[simp] theorem readyToExecute_z (s : State) (w : Word) : (readyToExecute s w).z = s.z := by
  simp [readyToExecute, State.placeWord]

@[simp] theorem readyToExecute_c (s : State) (w : Word) : (readyToExecute s w).c = s.c := by
  simp [readyToExecute, State.placeWord]

@[simp] theorem readyToExecute_cs (s : State) (w : Word) : (readyToExecute s w).cs = .execute := by simp [readyToExecute]

@[simp] theorem readyToExecute_reg (s : State) (w : Word) (q : RegIdx) : (readyToExecute s w).reg q = s.reg q := by
  simp [readyToExecute, State.placeWord]

theorem readyToExecute_cell (s : State) (w : Word) (a : Byte) :
    (readyToExecute s w).cell a = (s.placeWord s.pc w).cell a := by simp [readyToExecute]

@[simp] theorem readyToExecute_ir (s : State) (w : Word) : (readyToExecute s w).ir = w := State.wordAt_placeWord s s.pc w

@[simp] theorem readyToExecute_d (s : State) (w : Word) : (readyToExecute s w).d = scratchOf (decodeWord w) := by
  rw [readyToExecute, decodePhase_d, ← decodePhase_ir, ← readyToExecute, readyToExecute_ir]

/-! ### The parametric machine at the machine's own parameters -/

theorem execWith_params (i : Instr) (s : State) : execWith params i s = exec i s := by cases i <;> rfl

theorem subStepWith_params (s : State) : subStepWith params s = step s := by
  simp only [subStepWith, step, subStepOver, execWith_params]

/-! ### Induction over a launched run -/

/-- What holds of every launch state and is kept by every step holds of every reachable state. -/
theorem Reachable.preserves {P : State → Prop} (launched : ∀ src s, Machine.launch src = .ok s → P s)
    (kept : ∀ s t, P s → Machine.step s = .next t → P t) {s : State} (h : Reachable s) : P s := by
  induction h with
  | launch h => exact launched _ _ h
  | step _ h ih => exact kept _ _ ih h

/-- A successful load changes memory only, and the memory it leaves is canonical. -/
theorem loadMemory_ok {src : ImageSource} {s t : State} (h : loadMemory src s = .ok t) :
    ∃ bs, src = .bytes bs ∧ 256 ≤ bs.length ∧ t = { s with mem := Memory.ofBytesFrom 0 (bs.take 256) } ∧
      t.mem.wf = true := by
  cases src with
  | missing => simp [loadMemory] at h
  | unreadable => simp [loadMemory] at h
  | bytes bs =>
    by_cases hl : bs.length < 256
    · simp [loadMemory, imageSize, hl] at h
    · simp only [loadMemory, imageSize, hl, if_false, Except.ok.injEq] at h
      subst h
      exact ⟨bs, rfl, by omega, rfl, Memory.wf_ofBytesFrom _ (by simp)⟩

/-- A failed load leaves a canonical memory canonical. -/
theorem afterFailedLoad_wf {s : State} (h : s.mem.wf = true) (src : ImageSource) : (afterFailedLoad src s).mem.wf = true := by
  cases src with
  | missing => exact h
  | unreadable => exact h
  | bytes bs => exact Memory.wf_ofBytesFrom _ (by simp [imageSize])

/-- A cleared memory is canonical. -/
theorem clearMemory_wf (s : State) : (clearMemory s).mem.wf = true := rfl

end Sys2Proof.Machine
end

