-- ==== Sys2Proof/Tests/Slice0.lean ====
section
/-! SUPPORT. The model's own tests. Expected results come from spec/95_test_vectors.md (the vector's name stands in the comment) or
from the worked examples of the rules, never from the model. The witnesses at the end show, for every obligation with
hypotheses, a state and operands that meet them all. -/

namespace Sys2Proof.Machine

/-! ### Helpers -/

/-- The start of a single-instruction vector: the cold-reset state with `pc`, flags, registers and cells as given. -/
def start (at' : Byte) (z c : Bool) (regs : List (RegIdx × Byte)) (cells : List (Byte × Byte)) : State :=
  cells.foldl (fun s e => s.setCell e.1 e.2)
    (regs.foldl (fun s e => s.setReg e.1 e.2) { State.reset with pc := at', z := z, c := c })

/-- What `look` sees after the one step that executes the word `w` placed at `pc`. -/
def after {α : Type} (w : Nat) (s : State) (look : State → α) : Option α :=
  (nextState (step (s.withFetchWord 16 w))).map look

/-- A state whose next sub-step executes `i`. -/
def poised (i : Instr) (s : State) : State := { s with ir := encode i, d := scratchOf i, cs := .execute }

/-! ### WellFormed: a quadruple of scratch fields refused by each check of R67's table -/

theorem test_wf_accepts_every_shape :
    Scratch.wellFormed ⟨0, 0, 0, 0⟩ = true ∧ Scratch.wellFormed ⟨4, 15, 15, 15⟩ = true ∧
    Scratch.wellFormed ⟨5, 15, 255, 0⟩ = true ∧ Scratch.wellFormed ⟨9, 15, 15, 0⟩ = true ∧
    Scratch.wellFormed ⟨10, 15, 0, 0⟩ = true ∧ Scratch.wellFormed ⟨12, 255, 0, 0⟩ = true ∧
    Scratch.wellFormed ⟨14, 3, 3, 255⟩ = true ∧ Scratch.wellFormed ⟨15, 3, 3, 0⟩ = true := by decide

theorem test_wf_refuses_opcode_16 : Scratch.wellFormed ⟨16, 0, 0, 0⟩ = false := by decide

theorem test_wf_refuses_operands_of_hlt_ret :
    Scratch.wellFormed ⟨0, 1, 0, 0⟩ = false ∧ Scratch.wellFormed ⟨0, 0, 1, 0⟩ = false ∧
    Scratch.wellFormed ⟨13, 0, 0, 1⟩ = false := by decide

theorem test_wf_refuses_register_16 :
    Scratch.wellFormed ⟨1, 16, 0, 0⟩ = false ∧ Scratch.wellFormed ⟨2, 0, 16, 0⟩ = false ∧
    Scratch.wellFormed ⟨3, 0, 0, 16⟩ = false ∧ Scratch.wellFormed ⟨5, 16, 0, 0⟩ = false ∧
    Scratch.wellFormed ⟨7, 16, 0, 0⟩ = false ∧ Scratch.wellFormed ⟨9, 0, 16, 0⟩ = false ∧
    Scratch.wellFormed ⟨10, 16, 0, 0⟩ = false := by decide

theorem test_wf_refuses_unused_fields :
    Scratch.wellFormed ⟨5, 0, 0, 1⟩ = false ∧ Scratch.wellFormed ⟨7, 0, 0, 1⟩ = false ∧
    Scratch.wellFormed ⟨10, 0, 1, 0⟩ = false ∧ Scratch.wellFormed ⟨11, 0, 0, 1⟩ = false ∧
    Scratch.wellFormed ⟨12, 0, 1, 0⟩ = false ∧ Scratch.wellFormed ⟨12, 0, 0, 1⟩ = false ∧
    Scratch.wellFormed ⟨15, 0, 0, 1⟩ = false := by decide

theorem test_wf_refuses_wide_flag_fields :
    Scratch.wellFormed ⟨14, 4, 0, 0⟩ = false ∧ Scratch.wellFormed ⟨14, 0, 4, 0⟩ = false ∧
    Scratch.wellFormed ⟨15, 4, 0, 0⟩ = false ∧ Scratch.wellFormed ⟨15, 0, 4, 0⟩ = false := by decide

/-! ### Decoding (section 4 of the vectors; R63's example words; R50) -/

theorem test_decode_vectors :
    [0x09C7, 0x19C7, 0x29C7, 0x39C7, 0x49C7, 0x59C7, 0x69C7, 0x79C7].map (decodeTableWord 16) =
      [some .hlt, some (.adc 9 12 7), some (.and 9 12 7), some (.xor 9 12 7), some (.rot 9 12 7), some (.ldi 9 0xC7),
        some (.ldm 9 0xC7), some (.ldr 12 7)] ∧
    [0x89C7, 0x99C7, 0xA9C7, 0xB9C7, 0xC9C7, 0xD9C7, 0xE9C7, 0xF9C7].map (decodeTableWord 16) =
      [some (.sto 9 0xC7), some (.str 12 7), some (.psh 9), some (.pop 9), some (.jsr 0xC7), some .ret,
        some (.bra 2 1 0xC7), some (.mdf 2 1)] := by decide

theorem test_scratch_vectors :
    [0x09C7#16, 0x19C7#16, 0x59C7#16, 0x79C7#16, 0xA9C7#16, 0xC9C7#16, 0xE9C7#16, 0xF9C7#16].map
        (fun w => scratchOf (decodeWord w)) =
      [⟨0, 0, 0, 0⟩, ⟨1, 9, 0xC, 7⟩, ⟨5, 9, 0xC7, 0⟩, ⟨7, 0xC, 7, 0⟩, ⟨0xA, 9, 0, 0⟩, ⟨0xC, 0xC7, 0, 0⟩,
        ⟨0xE, 2, 1, 0xC7⟩, ⟨0xF, 2, 1, 0⟩] := by decide

/-- "ADC R2,R0,R1 = 0x1201", "LDR R1,R2 = 0x7012", "BRA 0b10,0b00,0x06 = 0xE806", "MDF 0b11,0b10 = 0xFE00"; V-STO-1, V-JSR-1. -/
theorem test_encode_vectors :
    encode (.adc 2 0 1) = 0x1201 ∧ encode (.ldr 1 2) = 0x7012 ∧ encode (.bra 0b10 0b00 0x06) = 0xE806 ∧
    encode (.mdf 0b11 0b10) = 0xFE00 ∧ encodeBytes (.sto 2 0x80) = [0x82, 0x80] ∧ encodeBytes (.jsr 0x10) = [0xC0, 0x10] := by
  decide

theorem test_decode_rejects_short_input_by_name :
    (match decodeBytes [] with | .error .truncated => true | _ => false) = true ∧
    (match decodeBytes [0x12] with | .error .truncated => true | _ => false) = true ∧
    (match decodeBytes [0x12, 0x01, 0x55] with | .ok (i, rest) => decide (i = .adc 2 0 1) && decide (rest = [0x55]) | _ => false) =
      true := by decide

/-! ### One step per instruction (section 5 of the vectors) -/

/-- V-ADC-1 -/
theorem test_adc_wraps_to_zero :
    after 0x1001 (start 0x10 false false [(0, 0xFF), (1, 1)] []) (fun t => (t.reg 0, t.z, t.c, t.pc)) =
      some (0, true, true, 0x12) := by decide

/-- V-ADC-7 -/
theorem test_adc_doubles_through_carry :
    after 0x1333 (start 0x10 false true [(3, 0x80)] []) (fun t => (t.reg 3, t.z, t.c, t.pc)) =
      some (1, false, true, 0x12) := by decide

/-- V-AND-1 -/
theorem test_and_keeps_carry :
    after 0x2012 (start 0x10 false true [(1, 0xF0), (2, 0x3C)] []) (fun t => (t.reg 0, t.z, t.c)) =
      some (0x30, false, true) := by decide

/-- V-AND-2 -/
theorem test_and_zero :
    after 0x2012 (start 0x10 false false [(0, 0x77), (1, 0xF0), (2, 0x0F)] []) (fun t => (t.reg 0, t.z, t.c)) =
      some (0, true, false) := by decide

/-- V-XOR-2 -/
theorem test_xor_clears :
    after 0x3555 (start 0x10 false true [(5, 0xA7)] []) (fun t => (t.reg 5, t.z, t.c)) = some (0, true, true) := by decide

/-- V-XOR-4 -/
theorem test_xor_complements :
    after 0x3112 (start 0x10 false false [(1, 0x0F), (2, 0xFF)] []) (fun t => (t.reg 1, t.z)) = some (0xF0, false) := by decide

/-- V-ROT-3, V-ROT-9 -/
theorem test_rot_left_and_right :
    after 0x4211 (start 0x10 true true [(1, 0x81), (2, 0x55)] []) (fun t => (t.reg 2, t.z, t.c)) = some (3, false, true) ∧
    after 0x421B (start 0x10 true true [(1, 0xB5), (2, 0x55)] []) (fun t => (t.reg 2, t.z, t.c)) =
      some (0x76, false, true) := by decide

/-- V-ROT-17 (Z from the old value), V-ROT-15 (count 0) -/
theorem test_rot_zero_flag_and_zero_count :
    after 0x4219 (start 0x10 true false [(2, 5)] []) (fun t => (t.reg 2, t.z, t.c)) = some (0, false, false) ∧
    after 0x4218 (start 0x10 false true [(1, 0x81), (2, 0x55)] []) (fun t => (t.reg 2, t.z, t.c, t.pc)) =
      some (0x55, false, true, 0x12) := by decide

/-- V-LDI-2 -/
theorem test_ldi_zero :
    after 0x5700 (start 0x10 false true [(7, 9)] []) (fun t => (t.reg 7, t.z, t.c)) = some (0, true, true) := by decide

/-- V-LDI-3 -/
theorem test_ldi_sets_sp :
    after 0x5F80 (start 0x10 false false [] []) (fun t => (t.sp, t.reg 15, t.z)) = some (0x80, 0x80, false) := by decide

/-- V-LDM-1 -/
theorem test_ldm_zero :
    after 0x6380 (start 0x10 false false [(3, 7)] []) (fun t => (t.reg 3, t.z)) = some (0, true) := by decide

/-- V-LDM-2 -/
theorem test_ldm_reads_its_own_first_byte :
    after 0x6310 (start 0x10 false false [] []) (fun t => (t.reg 3, t.z)) = some (0x63, false) := by decide

/-- V-LDR-2 -/
theorem test_ldr_ignores_bits_11_to_8 :
    after 0x7F12 (start 0x10 false false [(2, 0x41)] [(0x41, 0x42)]) (fun t => (t.reg 1, t.z)) = some (0x42, false) := by decide

/-- V-LDR-3 -/
theorem test_ldr_reads_the_address_first :
    after 0x7022 (start 0x10 false false [(2, 0x41)] []) (fun t => (t.reg 2, t.z)) = some (0, true) := by decide

/-- V-STO-2 -/
theorem test_sto_zero_sets_z :
    after 0x8280 (start 0x10 false false [] [(0x80, 0x99)]) (fun t => (t.cell 0x80, t.z, t.mem.wf)) =
      some (0, true, true) := by decide

/-- V-STO-3 -/
theorem test_sto_over_itself :
    after 0x8211 (start 0x10 false false [(2, 0xAA)] []) (fun t => (t.cell 0x11, t.ir, t.z)) =
      some (0xAA, 0x8211, false) := by decide

/-- V-STR-1 -/
theorem test_str_through_register :
    after 0x9013 (start 0x10 false false [(1, 0x42), (3, 0x41)] []) (fun t => (t.cell 0x41, t.reg 3, t.z)) =
      some (0x42, 0x41, false) := by decide

/-- V-STR-3 -/
theorem test_str_through_sp :
    after 0x901F (start 0x10 false false [] [(0xFF, 0x33)]) (fun t => (t.cell 0xFF, t.sp, t.z)) =
      some (0, 0xFF, true) := by decide

/-- V-PSH-2 -/
theorem test_psh_pushes_the_old_sp :
    after 0xAF00 (start 0x10 false false [] []) (fun t => (t.sp, t.cell 0xFF)) = some (0xFE, 0xFF) := by decide

/-- V-PSH-4, V-PSH-3 -/
theorem test_psh_wraps_and_keeps_flags :
    after 0xA300 (start 0x10 false false [(3, 0x12), (15, 0)] []) (fun t => (t.sp, t.cell 0, t.pc)) =
      some (0xFF, 0x12, 0x12) ∧
    after 0xA300 (start 0x10 false true [] []) (fun t => (t.sp, t.z, t.c)) = some (0xFE, false, true) := by decide

/-- V-POP-3 -/
theorem test_pop_into_sp :
    after 0xBF00 (start 0x10 false false [(15, 0xFE)] [(0xFF, 0x40)]) (fun t => (t.sp, t.z)) = some (0x40, false) := by decide

/-- V-POP-4 -/
theorem test_pop_wraps :
    after 0xB300 (start 0x10 false false [] [(0, 0x21)]) (fun t => (t.reg 3, t.sp)) = some (0x21, 0) := by decide

/-- V-JSR-2 -/
theorem test_jsr_return_address_wraps :
    after 0xC081 (start 0xFE false false [] []) (fun t => (t.sp, t.cell 0xFF, t.pc)) = some (0xFE, 0, 0x81) := by decide

/-- V-JSR-3 -/
theorem test_jsr_keeps_flags :
    after 0xCF20 (start 0x30 true true [(15, 0)] []) (fun t => (t.sp, t.cell 0, t.pc, t.z, t.c)) =
      some (0xFF, 0x32, 0x20, true, true) := by decide

/-- V-RET-2 -/
theorem test_ret_to_zero_keeps_z :
    after 0xD000 (start 0x1C false false [(15, 0xFE)] []) (fun t => (t.sp, t.pc, t.z)) = some (0xFF, 0, false) := by decide

/-- V-RET-3 -/
theorem test_ret_wraps :
    after 0xDABC (start 0x40 false false [] [(0, 0x51)]) (fun t => (t.sp, t.pc)) = some (0, 0x51) := by decide

/-- V-BRA-2, V-BRA-3 -/
theorem test_bra_on_z :
    after 0xEA40 (start 0xFE false false [] []) (fun t => t.pc) = some 0 ∧
    after 0xEA40 (start 0xFE true false [] []) (fun t => t.pc) = some 0x40 := by decide

/-- R122's examples: with Z = 0, C = 1, 0xE806 is taken and 0xEC06 is not; 0xED06 is. -/
theorem test_bra_on_both_flags :
    after 0xE806 (start 0x10 false true [] []) (fun t => t.pc) = some 0x06 ∧
    after 0xEC06 (start 0x10 false true [] []) (fun t => t.pc) = some 0x12 ∧
    after 0xED06 (start 0x10 false true [] []) (fun t => t.pc) = some 0x06 := by decide

/-- V-MDF-1 -/
theorem test_mdf_both : after 0xFE00 (start 0x10 false true [] []) (fun t => (t.z, t.c)) = some (true, false) := by decide

/-- V-MDF-3 -/
theorem test_mdf_z_only : after 0xF900 (start 0x10 true false [] []) (fun t => (t.z, t.c)) = some (false, false) := by decide

/-- V-HLT-1 -/
theorem test_hlt : after 0x0000 (start 0x06 true true [] []) (fun t => (t.cs, t.sr, t.pc)) = some (.halt, 0xF, 0x08) := by decide

/-- V-HLT-1 under `HLT_PC_ADVANCE = 0`; V-ROT-19 under `ROT_CTRL_SOURCE = register` (right 2 of ring 0x081 is 0x0A0 with the bit 0
that fell out at ring bit 7). -/
theorem test_alternative_parameters :
    (nextState (execWith ⟨.zero, .register, true⟩ .hlt (start 0x06 true true [] []))).map (fun t => (t.cs, t.pc)) =
      some (.halt, 0x06) ∧
    (nextState (execWith ⟨.zero, .register, true⟩ (.rot 2 3 1) (start 0x10 false false [(1, 0x0A), (3, 0x81), (2, 0x55)] []))).map
      (fun t => (t.reg 2, t.z, t.c)) = some (0xA0, false, false) := by decide

/-! ### The cycle and the host (sections 3 and 7 of the vectors) -/

/-- V-CYC-4: fetch at 0xFF wraps -/
theorem test_fetch_wraps :
    (nextState (step (start 0xFF false false [] [(0xFF, 0x53), (0, 0x11)]))).map (fun t => (t.ir, t.cs, t.pc)) =
      some (0x5311, .decode, 0xFF) := by decide

/-- V-RST-1 -/
theorem test_reset :
    (State.reset.pc, State.reset.ir, State.reset.sr, State.reset.sp, State.reset.reg 14, State.reset.d) =
      (0, 0, 0, 0xFF, 0, ⟨0, 0, 0, 0⟩) ∧ State.reset.mem = [] := by decide

/-- V-RST-5: a warm reset in Execute abandons the instruction -/
theorem test_warm_reset_mid_instruction :
    let s := warmReset params (poised (.ldi 0 5) (start 0 false false [] [(0, 0x50), (1, 0x05)]))
    (s.cs, s.pc, s.ir, s.reg 0, s.d, s.cell 0) = (.fetch, 0, 0, 0, ⟨5, 0, 5, 0⟩, 0x50) := by decide

/-- V-CYC-2, V-RST-7: one full step of the reset machine halts it -/
theorem test_full_step_from_reset :
    (nextState (fullStep params State.reset)).map (fun t => (t.cs, t.sr, t.pc)) = some (.halt, 0xC, 0x02) := by decide

/-! ### Witnesses: a state and operands that meet all the hypotheses of an obligation together -/

theorem witness_RotationsMoveEachRingBit : ((1 ≤ 1 ∧ 1 ≤ 8) ∧ 0 ≤ 8) ∧ ((1 ≤ 8 ∧ 8 ≤ 8) ∧ 8 ≤ 8) := by decide

theorem witness_RotationsUndoEachOther : ((1 ≤ 1 ∧ 1 ≤ 7) ∧ (1 ≤ 7 ∧ 7 ≤ 7)) ∧ ((2 ≤ 2 ∧ 2 ≤ 7) ∧ (2 ≤ 7 ∧ 7 ≤ 7)) := by decide

theorem witness_StackPointerWraps :
    (start 0x10 false false [(15, 0)] []).reg 15 = 0 ∧ State.reset.reg 15 = 255 ∧ (3 : RegIdx) ≠ 15 := by decide

theorem witness_RetPopsTheProgramCounter : 0 < 0x1000 ∧ 0xFFF < 0x1000 := by decide

theorem witness_HltEntersHalt : 0 < 0x1000 ∧ 0xFFF < 0x1000 := by decide

theorem witness_ParametersReachHltAndRotOnly : (Instr.mdf 3 2).opcode ≠ 0 ∧ (Instr.mdf 3 2).opcode ≠ 4 := by decide

theorem witness_FetchLatchesTheWordHighByteFirst : (start 0xFF false false [] [(0xFF, 0x53)]).cs = .fetch := by decide

theorem witness_DecodeFillsTheScratchFields :
    (fetchPhase (start 0 false false [] [(0, 0xE9), (1, 0xC7)])).cs = .decode := by decide

theorem witness_StepsExecuteTheFetchedInstruction :
    (let s := poised (.adc 2 0 1) State.reset; s.cs = .execute ∧ s.d = scratchOf (.adc 2 0 1)) ∧
    (let s := start 0xFF false false [] [(0xFF, 0x53), (0, 0x11)];
      s.cs = .fetch ∧ decodeBytes [s.cell s.pc, s.cell (s.pc + 1)] = .ok (.ldi 3 0x11, [])) :=
  ⟨by decide, by decide, rfl⟩

theorem witness_CycleMovesAsTheTableSays :
    State.reset.cs = .fetch ∧ (fetchPhase State.reset).cs = .decode ∧
    (let s := poised (.mdf 3 3) State.reset; s.ScratchCoherent ∧ s.cs = .execute ∧ s.d.d0 ≠ 0) ∧
    (let s := poised .hlt State.reset; s.ScratchCoherent ∧ s.cs = .execute ∧ s.d.d0 = 0) ∧
    ({ State.reset with cs := .halt } : State).cs = .halt := by decide

theorem witness_HaltIsTerminalForStepping :
    (({ State.reset with cs := .halt } : State).cs = .halt ∧ 256 ≤ (List.replicate 256 (0 : Byte)).length) ∧
    ∃ t, (poised .hlt State.reset).ScratchCoherent ∧ (poised .hlt State.reset).cs = .execute ∧
      step (poised .hlt State.reset) = .next t ∧ t.cs = .halt :=
  ⟨⟨rfl, by rw [List.length_replicate]⟩, _, by decide, rfl, rfl, rfl⟩

theorem witness_HaltIsEnteredByHltAndLeftByReset :
    (∃ t, step (poised .hlt State.reset) = .next t ∧ t.cs = .halt) ∧
    (let s : State := { State.reset with cs := .halt };
      s.cs = .halt ∧ step s = .next s ∧ HostOp.clearMemory ≠ .create ∧ HostOp.clearMemory ≠ .resetRegisters ∧
      (∀ p v, HostOp.clearMemory ≠ .poke p v) ∧ hostCall params .clearMemory s = (.done, some s)) :=
  ⟨⟨_, rfl, rfl⟩, rfl, rfl, by decide, by decide, (by intro _ _ h; cases h), rfl⟩

theorem witness_RunPartAndRunFullAgree :
    ∃ t, runPart params 7 3 State.reset = some t ∧ runPart params 0 3 State.reset = some t ∧
      runFull params 7 1 State.reset = some t ∧ t.cs = .halt :=
  ⟨_, rfl, rfl, rfl, rfl⟩

theorem witness_SubStepRefinesThePseudocode :
    (State.reset.cs = .execute → State.reset.d.wellFormed = true) ∧
    (let s := poised (.rot 2 1 0xB) (start 0x10 true true [(1, 0xB5)] []); s.cs = .execute ∧ s.d.wellFormed = true) := by decide

theorem witness_InstructionsWriteOnlyWhatTheirRowNames :
    (∃ t, exec (.mdf 0 3) State.reset = .next t) ∧ (∃ t, exec (.sto 2 0x80) State.reset = .next t) ∧
    (3 : RegIdx) ∉ writtenRegs (.mdf 0 3) ∧ storeAddress State.reset (.mdf 0 3) ≠ some 0x80 ∧
    writesZ (.mdf 0 3) = false ∧ writesC (.mdf 0 3) = false ∧
    storeAddress State.reset (.sto 2 0x80) ≠ some 0x81 ∧ storeAddress State.reset (.sto 2 0x80) = some 0x80 :=
  ⟨⟨_, rfl⟩, ⟨_, rfl⟩, by decide⟩

theorem witness_OnlyExecuteMovesThePc : ∃ t, step State.reset = .next t ∧ State.reset.cs ≠ .execute :=
  ⟨_, rfl, by decide⟩

theorem witness_ExecuteIsBlindToIrAndScratch : ∃ t, exec (.jsr 0x10) State.reset = .next t := ⟨_, rfl⟩

/-- A store over the instruction's own second byte (V-STO-3) and over its first, by STO, STR, PSH and JSR. -/
theorem witness_StoresReachEveryLaterFetch :
    (let s := start 0x10 false false [(2, 0xAA)] [(0x10, 0x82), (0x11, 0x11)];
      s.cs = .fetch ∧ decodeBytes [s.cell s.pc, s.cell (s.pc + 1)] = .ok (.sto 2 0x11, []) ∧
      storeAddress s (.sto 2 0x11) = some 0x11) ∧
    (let s := start 0x10 false false [(1, 0x42), (3, 0x10)] [(0x10, 0x90), (0x11, 0x13)];
      s.cs = .fetch ∧ decodeBytes [s.cell s.pc, s.cell (s.pc + 1)] = .ok (.str 1 3, []) ∧
      storeAddress s (.str 1 3) = some 0x10) ∧
    (let s := start 0x10 false false [(3, 0x77), (15, 0x11)] [(0x10, 0xA3)];
      s.cs = .fetch ∧ decodeBytes [s.cell s.pc, s.cell (s.pc + 1)] = .ok (.psh 3, []) ∧
      storeAddress s (.psh 3) = some 0x11) ∧
    (let s := start 0xFE false false [] [(0xFE, 0xC0), (0xFF, 0x81)];
      s.cs = .fetch ∧ decodeBytes [s.cell s.pc, s.cell (s.pc + 1)] = .ok (.jsr 0x81, []) ∧
      storeAddress s (.jsr 0x81) = some 0xFF) :=
  ⟨⟨by decide, rfl, rfl⟩, ⟨by decide, rfl, rfl⟩, ⟨by decide, rfl, rfl⟩, by decide, rfl, rfl⟩

/-- … and a later Fetch: after the STO, the three steps of a MDF store nothing and end in Fetch. -/
theorem witness_StoresReachEveryLaterFetch_run :
    ∃ t u, runSteps 3 (start 0x10 false false [(2, 0xAA)] [(0x10, 0x82), (0x11, 0x11), (0x12, 0xF0)]) = .next t ∧
      NoStoreTo 0x11 3 t ∧ runSteps 3 t = .next u ∧ u.cs = .fetch :=
  ⟨_, _, rfl, .cons rfl (by decide) (.cons rfl (by decide) (.cons rfl (by decide) trivial)), rfl, rfl⟩

theorem witness_ZeroOpcodeHaltsAndChangesNothingElse :
    (let s := start 0xFF false true [] [(0xFF, 0x0F), (0, 0xFF)]; s.cs = .fetch ∧ (s.cell s.pc).toNat < 0x10) ∧
    State.reset.cs = .fetch ∧ (State.reset.cell State.reset.pc).toNat < 0x10 := by decide

/-- A zero image leaves the cold-reset state (R45). -/
theorem launch_zeros : launch (.bytes (List.replicate 256 0)) = .ok State.reset := by
  have zeros : ∀ n a, Memory.ofBytesFrom a (List.replicate n 0) = [] := by
    intro n
    induction n with
    | zero => intro a; rfl
    | succ n ih =>
      intro a
      rw [List.replicate_succ, Memory.ofBytesFrom, if_pos (show (0 : Byte) = Memory.unlisted from rfl), ih]
  simp only [launch, loadMemory, imageSize, List.length_replicate, List.take_replicate, zeros]
  rfl

theorem witness_LaunchMeetsTheInvariant :
    256 ≤ (List.replicate 256 (0 : Byte)).length ∧ ∃ s, launch (.bytes (List.replicate 256 0)) = .ok s :=
  ⟨by rw [List.length_replicate], _, launch_zeros⟩

theorem witness_EveryStepKeepsTheInvariant : State.reset.Inv ∧ ∃ t, step State.reset = .next t :=
  ⟨⟨by decide, by decide, by decide⟩, _, rfl⟩

/-- Reachable states in Decode, in Execute and in Halt: the launch of a zero image, stepped. -/
theorem witness_ReachableStatesAreCoherent :
    (∃ s, Reachable s ∧ s.cs = .decode) ∧ (∃ s, Reachable s ∧ s.cs = .execute) ∧ (∃ s, Reachable s ∧ s.cs = .halt) := by
  have r1 : Reachable (fetchPhase State.reset) := .step (.launch launch_zeros) rfl
  have r2 : Reachable (decodePhase (fetchPhase State.reset)) := .step r1 rfl
  exact ⟨⟨_, r1, rfl⟩, ⟨_, r2, rfl⟩, _, .step r2 rfl, rfl⟩

theorem witness_HostOperationsKeepTheMachineCoherent :
    (∀ p v, HostOp.subStep ≠ .poke p v) ∧ (poised .ret State.reset).MemCanonical ∧ (poised .ret State.reset).ScratchCoherent ∧
    ∃ t, hostCall params .subStep (poised .ret State.reset) = (.done, some t) :=
  ⟨(by intro _ _ h; cases h), by decide, by decide, _, rfl⟩

/-- The registers and cells as an accessor shows them, and the status byte of V-HLT-1. -/
theorem test_accessors :
    let s : State := { start 0x06 true true [(3, 0x77)] [(0x41, 0x42)] with cs := .halt, ir := 0x0ABC, d := ⟨1, 2, 0, 3⟩ };
    [accessor s (.reg 3), accessor s (.reg 15), accessor s (.cell 0x41), accessor s .pc, accessor s .ir, accessor s .sr,
      accessor s (.scratch 1), accessor s (.scratch 3)] = [0x77, 0xFF, 0x42, 0x06, 0x0ABC, 0xF, 2, 3] := by decide

theorem witness_MemoryImageRoundTrips :
    256 ≤ (List.replicate 256 (0 : Byte)).length ∧ (List.replicate 255 (0 : Byte)).length < 256 ∧
    (start 0 false false [] [(0xFF, 1), (0, 2)]).MemCanonical ∧ loadMemory .missing State.reset = .error .notFound :=
  ⟨by rw [List.length_replicate], by rw [List.length_replicate]; decide, by decide, rfl⟩

end Sys2Proof.Machine
end

/-! ### The scope of the open parameters (spec/00_scope.md R5) -/

namespace Sys2Proof.Machine

/-- Only the arms of HLT (opcode 0, D2) and of ROT (opcode 4, D3) read a parameter. -/
theorem execWith_eq_exec (cfg : Config) {i : Instr} (s : State) (notHlt : i.opcode ≠ 0) (notRot : i.opcode ≠ 4) :
    execWith cfg i s = exec i s := by
  cases i with
  | hlt => exact absurd rfl notHlt
  | rot r a t => exact absurd rfl notRot
  | _ => rfl

/-- A ROT under any parameters is the machine's own ROT (whose control nibble is the field) of the nibble that
`ROT_CTRL_SOURCE` selects. -/
theorem execWith_rot (cfg : Config) (r a : RegIdx) (t : Nibble) (s : State) :
    execWith cfg (.rot r a t) s = exec (.rot r a (rotControl cfg.rotCtrlSource s t)) s := rfl

@[simp] theorem rotControl_field (s : State) (t : Nibble) : rotControl .field s t = t := rfl

/-- The control nibble under `register` as a number: `x[T] mod 16` (R69). -/
theorem rotControl_register (s : State) (t : Nibble) :
    rotControl .register s t = BitVec.ofNat 4 ((s.reg t).toNat % 16) :=
  BitVec.eq_of_toNat_eq (by simp [rotControl])

/-- Settles O26: the arms outside HLT and ROT are `exec`'s own, and ROT's is `exec`'s at the selected control nibble. -/
theorem parametersReachHltAndRotOnly : Obligations.ParametersReachHltAndRotOnly := by
  refine ⟨fun cfg _ s notHlt notRot => execWith_eq_exec cfg s notHlt notRot, fun cfg r a b s => ?_⟩
  rw [execWith_rot]
  cases cfg.rotCtrlSource with
  | field => rw [rotControl_field]
  | register => rw [rotControl_register]

end Sys2Proof.Machine

/-! ### What an Execute sub-step answers, in three parts: the data it writes, `pc` and `cs` (spec/40_cycle_engine.md R74, R75) -/

namespace Sys2Proof.Machine

/-- What an instruction does to registers, flags and memory, before the end of its Execute moves `pc` and `cs`. -/
def execEffect (i : Instr) (s : State) : State :=
  match i with
  | .adc r a b => (s.result r (adcResult (s.reg a) (s.reg b) s.c)).setC (adcCarry (s.reg a) (s.reg b) s.c)
  | .and r a b => s.result r (s.reg a &&& s.reg b)
  | .xor r a b => s.result r (s.reg a ^^^ s.reg b)
  | .rot r a ctl => rotEffect ctl r a s
  | .ldi r imm => s.result r imm
  | .ldm r addr => s.result r (s.cell addr)
  | .ldr r a => s.result r (s.cell (s.reg a))
  | .sto r addr => s.store addr (s.reg r)
  | .str r a => s.store (s.reg a) (s.reg r)
  | .psh r => s.push (s.reg r)
  | .pop r => s.pop.result r (s.cell (eaPop s))
  | .jsr _ => s.push (returnAddress s)
  | .ret => s.pop
  | .mdf select want => (s.setZ (mdfZ select want s.z)).setC (mdfC select want s.c)
  | .hlt | .bra _ _ _ => s

/-- `pc` after the Execute of an instruction (R75). -/
def nextPc (i : Instr) (s : State) : Byte :=
  match i with
  | .hlt => s.pc + params.hltPcAdvance.amount
  | .jsr target => target
  | .ret => s.cell (eaPop s)
  | .bra select want target => if branchTaken select want s.z s.c then target else s.pc + 2
  | _ => s.pc + 2

/-- `cs` after the Execute of an instruction: Halt after HLT, else Fetch (R74). -/
def nextCs (i : Instr) : CycleState :=
  match i with
  | .hlt => .halt
  | _ => .fetch

/-! ROT's effect is the one with a condition, so it has its lemmas first. -/

theorem rotEffect_of_count_zero {ctl : Nibble} (h : rotCount ctl = 0) (r a : RegIdx) (s : State) :
    rotEffect ctl r a s = s := if_pos h

@[simp] theorem rotEffect_pc (ctl : Nibble) (r a : RegIdx) (s : State) : (rotEffect ctl r a s).pc = s.pc := by
  unfold rotEffect; split <;> rfl

@[simp] theorem rotEffect_ir (ctl : Nibble) (r a : RegIdx) (s : State) : (rotEffect ctl r a s).ir = s.ir := by
  unfold rotEffect; split <;> rfl

@[simp] theorem rotEffect_d (ctl : Nibble) (r a : RegIdx) (s : State) : (rotEffect ctl r a s).d = s.d := by
  unfold rotEffect; split <;> rfl

@[simp] theorem rotEffect_mem (ctl : Nibble) (r a : RegIdx) (s : State) : (rotEffect ctl r a s).mem = s.mem := by
  unfold rotEffect; split <;> rfl

theorem reg_rotEffect_of_ne {q r : RegIdx} (h : q ≠ r) (ctl : Nibble) (a : RegIdx) (s : State) :
    (rotEffect ctl r a s).reg q = s.reg q := by
  unfold rotEffect; split <;> simp [h]

/-- Every Execute answers a next state, and its three parts are those above. -/
theorem exec_eq (i : Instr) (s : State) :
    exec i s = .next (((execEffect i s).setPc (nextPc i s)).setCs (nextCs i)) := by
  cases i with
  | rot r a ctl =>
    show State.retire (rotEffect ctl r a s) = _
    rw [State.retire_eq, rotEffect_pc]
    rfl
  | bra select want target =>
    show (if branchTaken select want s.z s.c then s.transfer target else s.retire) = _
    cases taken : branchTaken select want s.z s.c <;>
      simp [execEffect, nextPc, nextCs, taken, State.retire_eq, State.transfer_eq]
  | _ => rfl

/-- The inversion of `exec_eq`: the one state an Execute can answer. -/
theorem eq_of_exec {i : Instr} {s t : State} (h : exec i s = .next t) :
    t = ((execEffect i s).setPc (nextPc i s)).setCs (nextCs i) := by
  rw [exec_eq, Host.Outcome.next.injEq] at h
  exact h.symm

theorem eq_hlt_of_nextCs {i : Instr} (h : nextCs i ≠ .fetch) : i = .hlt := by
  cases i with
  | hlt => rfl
  | _ => exact absurd rfl h

/-! ### What the effect of an instruction leaves unchanged -/

@[simp] theorem execEffect_ir (i : Instr) (s : State) : (execEffect i s).ir = s.ir := by
  cases i with
  | rot r a ctl => exact rotEffect_ir ctl r a s
  | _ => rfl

@[simp] theorem execEffect_d (i : Instr) (s : State) : (execEffect i s).d = s.d := by
  cases i with
  | rot r a ctl => exact rotEffect_d ctl r a s
  | _ => rfl

theorem reg_execEffect_of_not_written {i : Instr} {q : RegIdx} (h : q ∉ writtenRegs i) (s : State) :
    (execEffect i s).reg q = s.reg q := by
  cases i with
  | rot r a ctl =>
    by_cases count : rotCount ctl = 0
    · exact congrArg (State.reg · q) (rotEffect_of_count_zero count r a s)
    · have ne : q ≠ r := by simpa [writtenRegs, show ¬ ctl.toNat % 8 = 0 from count] using h
      exact reg_rotEffect_of_ne ne ctl a s
  | _ => simp_all [execEffect, writtenRegs]

theorem mdfZ_of_unselected {select : FlagPair} (h : select.getLsbD 1 = false) (want : FlagPair) (z : Bool) :
    mdfZ select want z = z := by
  rw [mdfZ, h]; rfl

theorem mdfC_of_unselected {select : FlagPair} (h : select.getLsbD 0 = false) (want : FlagPair) (c : Bool) :
    mdfC select want c = c := by
  rw [mdfC, h]; rfl

theorem execEffect_z_of_not_written {i : Instr} (h : writesZ i = false) (s : State) : (execEffect i s).z = s.z := by
  cases i with
  | rot r a ctl =>
    have count : rotCount ctl = 0 := by simpa [writesZ, rotCount] using h
    exact congrArg State.z (rotEffect_of_count_zero count r a s)
  | mdf select want => exact mdfZ_of_unselected h want s.z
  | hlt | psh _ | jsr _ | ret | bra _ _ _ => rfl
  | _ => cases h

theorem execEffect_c_of_not_written {i : Instr} (h : writesC i = false) (s : State) : (execEffect i s).c = s.c := by
  cases i with
  | adc r a b => cases h
  | rot r a ctl =>
    have count : rotCount ctl = 0 := by simpa [writesC, rotCount] using h
    exact congrArg State.c (rotEffect_of_count_zero count r a s)
  | mdf select want => exact mdfC_of_unselected h want s.c
  | _ => rfl

/-- Memory is as it was, or one byte has been written at the instruction's store address (R30). -/
theorem execEffect_mem (i : Instr) (s : State) :
    (execEffect i s).mem = s.mem ∨ ∃ a v, storeAddress s i = some a ∧ (execEffect i s).mem = (s.setCell a v).mem := by
  cases i with
  | sto r addr => exact .inr ⟨addr, s.reg r, rfl, rfl⟩
  | str r a => exact .inr ⟨s.reg a, s.reg r, rfl, rfl⟩
  | psh r => exact .inr ⟨s.sp, s.reg r, rfl, rfl⟩
  | jsr target => exact .inr ⟨s.sp, returnAddress s, rfl, rfl⟩
  | rot r a ctl => exact .inl (rotEffect_mem ctl r a s)
  | _ => exact .inl rfl

theorem State.cell_congr {s t : State} (h : s.mem = t.mem) (a : Byte) : s.cell a = t.cell a :=
  congrArg (Memory.read · a.toNat) h

theorem cell_execEffect_of_ne {i : Instr} {s : State} {b : Byte} (h : storeAddress s i ≠ some b) :
    (execEffect i s).cell b = s.cell b := by
  obtain same | ⟨a, v, stores, written⟩ := execEffect_mem i s
  · exact State.cell_congr same b
  · have ne : b ≠ a := fun e => h (e ▸ stores)
    rw [State.cell_congr written, State.cell_setCell, if_neg ne]

theorem execEffect_wf {s : State} (h : s.mem.wf = true) (i : Instr) : (execEffect i s).mem.wf = true := by
  obtain same | ⟨a, v, -, written⟩ := execEffect_mem i s
  · rwa [same]
  · rw [written]
    exact State.wf_setCell h a v

/-- Settles O38: an Execute answers the effect with `pc` and `cs` moved, and the effect has one frame lemma per table. -/
theorem instructionsWriteOnlyWhatTheirRowNames : Obligations.InstructionsWriteOnlyWhatTheirRowNames := by
  intro i s t h
  obtain rfl := eq_of_exec h
  exact ⟨fun q hq => reg_execEffect_of_not_written hq s, fun a ha => cell_execEffect_of_ne ha,
    fun hz => execEffect_z_of_not_written hz s, fun hc => execEffect_c_of_not_written hc s,
    execEffect_ir i s, execEffect_d i s⟩

end Sys2Proof.Machine

/-! ### The invariant of spec/10_state.md R23, along every run -/

namespace Sys2Proof.Machine

/-- The invariant asks only for canonical memory in Fetch, where a new cycle begins. -/
theorem State.Inv.of_fetch {s : State} (wf : s.MemCanonical) (hcs : s.cs = .fetch) : s.Inv where
  memCanonical := wf
  scratchCoherent := by simp [State.ScratchCoherent, hcs]
  fetchCoherent := by simp [State.FetchCoherent, hcs]

theorem State.Inv.fetchPhase {s : State} (inv : s.Inv) : (fetchPhase s).Inv where
  memCanonical := inv.memCanonical
  scratchCoherent := by simp [State.ScratchCoherent]
  fetchCoherent := fun _ => rfl

theorem State.Inv.decodePhase {s : State} (inv : s.Inv) (hcs : s.cs = .decode) : (decodePhase s).Inv where
  memCanonical := inv.memCanonical
  scratchCoherent := by simp [State.ScratchCoherent]
  fetchCoherent := fun _ => inv.fetchCoherent (.inl hcs)

/-- In Execute the pending instruction is the decoded `ir`, so a HLT that enters Halt leaves its own word and fields. -/
theorem State.Inv.exec {s t : State} (inv : s.Inv) (hcs : s.cs = .execute)
    (h : Machine.exec (pendingInstr s) s = .next t) : t.Inv := by
  have hd : s.d = scratchOf (decodeWord s.ir) := inv.scratchCoherent.1 hcs
  rw [pendingInstr_of_d hd] at h
  obtain rfl := eq_of_exec h
  have wf := execEffect_wf inv.memCanonical (decodeWord s.ir)
  by_cases next : nextCs (decodeWord s.ir) = .fetch
  · exact .of_fetch wf next
  · have hlt := eq_hlt_of_nextCs next
    rw [hlt] at hd wf ⊢
    exact { memCanonical := wf
            scratchCoherent := ⟨by simp [nextCs], fun _ => ⟨hlt, hd⟩⟩
            fetchCoherent := by simp [State.FetchCoherent, nextCs] }

/-- Settles O44: one lemma per sub-step; in Halt a step changes nothing. -/
theorem everyStepKeepsTheInvariant : Obligations.EveryStepKeepsTheInvariant := by
  intro s t inv h
  obtain ⟨-, rfl⟩ | ⟨hcs, rfl⟩ | ⟨hcs, h⟩ | ⟨-, rfl⟩ := step_cases h
  · exact inv.fetchPhase
  · exact inv.decodePhase hcs
  · exact inv.exec hcs h
  · exact inv

theorem launch_inv {src : ImageSource} {s : State} (h : launch src = .ok s) : s.Inv := by
  obtain ⟨bs, -, -, loaded, wf⟩ := loadMemory_ok h
  exact .of_fetch wf (by rw [loaded]; rfl)

theorem Reachable.inv {s : State} (h : Reachable s) : s.Inv :=
  h.preserves (fun _ _ => launch_inv) everyStepKeepsTheInvariant

end Sys2Proof.Machine

/-! ### The invariant in terms of words and numbers -/

namespace Sys2Proof

/-- R51: the opcode of a decoded word is its top nibble. -/
@[simp] theorem opcode_decodeWord (w : Word) : (decodeWord w).opcode = fieldOpcode w := by
  apply Opcode.ofNibble_injective
  unfold decodeWord
  cases Opcode.ofNibble (fieldOpcode w) <;> rfl

theorem toNat_lt_of_decodeWord_eq_hlt {w : Word} (h : decodeWord w = .hlt) : w.toNat < 0x1000 := by
  have top : (fieldOpcode w).toNat = 0 := by rw [← opcode_decodeWord, h]; rfl
  rw [fieldOpcode_toNat] at top
  omega

/-- R67: `d[0]` is the opcode, whatever the format. -/
@[simp] theorem scratchOf_d0 (i : Instr) : (scratchOf i).d0 = i.opcode.setWidth 8 := by cases i <;> rfl

namespace Machine

/-- R19: bits 7 to 4 of the status byte are 0. -/
theorem State.sr_toNat_lt (s : State) : s.sr.toNat < 16 := by
  have := s.cs.code.isLt
  have := Bool.toNat_le s.z
  have := Bool.toNat_le s.c
  rw [State.sr_toNat]
  omega

theorem fetchWord_toNat (s : State) :
    (fetchWord s).toNat = (s.cell s.pc).toNat * 256 + (s.cell (s.pc + 1)).toNat :=
  wordOfBytes_toNat _ _

/-- Settles O45: a reachable state meets the invariant, whose clauses are these once words are read as numbers. -/
theorem reachableStatesAreCoherent : Obligations.ReachableStatesAreCoherent := by
  intro s reachable
  obtain ⟨wf, ⟨inExecute, inHalt⟩, fetched⟩ := reachable.inv
  refine ⟨wf, s.sr_toNat_lt, fun hcs => ?_, fun hcs => ?_, fun hcs => ?_⟩
  · rw [fetched (.inl hcs), fetchWord_toNat]
  · rw [inExecute hcs, scratchOf_d0, opcode_decodeWord]
    exact ⟨rfl, rfl, Laws.ScratchForm.wellFormed_scratchOf _⟩
  · obtain ⟨hlt, fields⟩ := inHalt hcs
    exact ⟨toNat_lt_of_decodeWord_eq_hlt hlt, fields⟩

end Machine

end Sys2Proof

/-! ### The first sub-step after a reset (spec/10_state.md R26) -/

namespace Sys2Proof.Machine

/-- A Fetch at `pc` 0 latches the word at addresses 0 and 1. -/
theorem step_fetch_at_zero {s : State} (hpc : s.pc = 0) (hcs : s.cs = .fetch) :
    ∃ t, step s = .next t ∧ t.ir = wordOfBytes (s.cell 0) (s.cell 1) := by
  refine ⟨fetchPhase s, step_fetch hcs, ?_⟩
  show s.wordAt s.pc = _
  rw [hpc]
  rfl

/-- Settles O48: either reset leaves `pc` 0 and Fetch, and the warm one leaves memory. -/
theorem firstFetchAfterResetReadsAddressZero : Obligations.FirstFetchAfterResetReadsAddressZero :=
  ⟨⟨rfl, rfl, step_fetch_at_zero rfl rfl⟩,
    fun cfg s => ⟨rfl, rfl, step_fetch_at_zero (s := warmReset cfg s) rfl rfl⟩⟩

end Sys2Proof.Machine

/-! ### A store and the fetches after it (spec/20_memory.md R30, R42) -/

namespace Sys2Proof.Machine

/-- The byte a storing instruction writes at its `storeAddress` (R30); of no meaning for the others. The last arm is
JSR's. -/
def storedByte (i : Instr) (s : State) : Byte :=
  match i with
  | .sto r _ => s.reg r
  | .str r _ => s.reg r
  | .psh r => s.reg r
  | _ => returnAddress s

/-- A storing instruction writes its byte in its one cell: `cell_execEffect_of_ne` has the cells beside it. -/
theorem cell_execEffect_of_store {i : Instr} {s : State} {a : Byte} (h : storeAddress s i = some a) (b : Byte) :
    (execEffect i s).cell b = if b = a then storedByte i s else s.cell b := by
  cases i with
  | sto r addr => cases h; exact State.cell_store s _ b (s.reg r)
  | str r p => cases h; exact State.cell_store s _ b (s.reg r)
  | psh r => cases h; exact State.cell_push s b (s.reg r)
  | jsr target => cases h; exact State.cell_push s b (returnAddress s)
  | _ => cases h

theorem nextCs_of_store {i : Instr} {s : State} {a : Byte} (h : storeAddress s i = some a) : nextCs i = .fetch := by
  by_contra halts
  rw [eq_hlt_of_nextCs halts] at h
  cases h

/-- From Fetch, three steps are the Execute of the word at `pc`, on the registers, flags and memory of the Fetch. -/
theorem runSteps_three_of_fetch {s : State} (h : s.cs = .fetch) :
    runSteps 3 s = exec (decodeWord (fetchWord s)) (decodePhase (fetchPhase s)) := by
  rw [runSteps_succ, step_fetch h, andThen_next, runSteps_succ, step_decode (fetchPhase_cs s), andThen_next,
    runSteps_succ, step_execute (decodePhase_cs _), pendingInstr_of_d (decodePhase_d _), fetchPhase_ir, exec_eq]
  rfl

/-! Fetch and Decode move nothing that a store reads. -/

theorem storeAddress_decodePhase_fetchPhase (i : Instr) (s : State) :
    storeAddress (decodePhase (fetchPhase s)) i = storeAddress s i := by
  cases i <;> rfl

theorem storedByte_decodePhase_fetchPhase (i : Instr) (s : State) :
    storedByte i (decodePhase (fetchPhase s)) = storedByte i s := by
  cases i <;> rfl

/-- A storing instruction at `pc` is executed as it was fetched, even where it stores over its own bytes. -/
theorem runSteps_three_of_store {s : State} {a : Byte} (hcs : s.cs = .fetch)
    (stores : storeAddress s (decodeWord (fetchWord s)) = some a) :
    ∃ t, runSteps 3 s = .next t ∧ t.cs = .fetch ∧
      ∀ b, t.cell b = if b = a then storedByte (decodeWord (fetchWord s)) s else s.cell b := by
  refine ⟨_, (runSteps_three_of_fetch hcs).trans (exec_eq _ _), nextCs_of_store stores, fun b => ?_⟩
  rw [← storeAddress_decodePhase_fetchPhase] at stores
  rw [← storedByte_decodePhase_fetchPhase]
  exact cell_execEffect_of_store stores b

/-- A step writes a cell only in the Execute of an instruction that stores there. -/
theorem cell_step_of_no_store {s t : State} {a : Byte} (hs : step s = .next t)
    (h : s.cs = .execute → storeAddress s (pendingInstr s) ≠ some a) : t.cell a = s.cell a := by
  obtain ⟨-, rfl⟩ | ⟨-, rfl⟩ | ⟨hcs, executed⟩ | ⟨-, rfl⟩ := step_cases hs
  · rfl
  · rfl
  · rw [eq_of_exec executed]
    exact cell_execEffect_of_ne (h hcs)
  · rfl

theorem cell_runSteps_of_noStoreTo {n : Nat} {s t : State} {a : Byte} (quiet : NoStoreTo a n s)
    (run : runSteps n s = .next t) : t.cell a = s.cell a := by
  induction n generalizing s with
  | zero => cases run; rfl
  | succ n ih =>
    obtain ⟨now, later⟩ := quiet
    rw [runSteps_succ, andThen_eq_next] at run
    obtain ⟨u, first, rest⟩ := run
    exact (ih (later u first) rest).trans (cell_step_of_no_store first now)

/-- A Fetch, wherever it is, latches the byte cell `a` is known to hold in each place it reads cell `a`. -/
theorem step_fetch_sees {u : State} {a v : Byte} (hcs : u.cs = .fetch) (holds : u.cell a = v) (p : Byte) :
    ∃ x, step { u with pc := p } = .next x ∧
      x.ir = wordOfBytes (if p = a then v else u.cell p) (if p + 1 = a then v else u.cell (p + 1)) := by
  have seen : ∀ q, (if q = a then v else u.cell q) = u.cell q := fun q => by
    split
    · next e => rw [e, holds]
    · rfl
  refine ⟨_, step_fetch (s := { u with pc := p }) hcs, ?_⟩
  rw [seen, seen]
  rfl

/-- Settles O41: three steps execute the fetched store, no later step of a quiet run touches its cell, and a Fetch reads
the cells of its moment. -/
theorem storesReachEveryLaterFetch : Obligations.StoresReachEveryLaterFetch := by
  intro s i a hcs decoded stores
  obtain rfl : decodeWord (fetchWord s) = i := by
    cases decoded
    rfl
  obtain ⟨t, run, fetch, cells⟩ := runSteps_three_of_store hcs stores
  refine ⟨t, run, fetch, cells, fun n u quiet later => ?_⟩
  have holds : u.cell a = storedByte (decodeWord (fetchWord s)) s := by
    rw [cell_runSteps_of_noStoreTo quiet later, cells, if_pos rfl]
  exact ⟨holds, fun hu => step_fetch_sees hu holds⟩

end Sys2Proof.Machine

/-! ### The stack pointer at the ends of memory (spec/20_memory.md R39) -/

namespace Sys2Proof.Machine

/-- A push at 0 writes cell 0 and leaves `sp` at 255. -/
theorem State.push_at_zero {s : State} (h : s.reg 15 = 0) (v : Byte) :
    (s.push v).cell 0 = v ∧ (s.push v).reg 15 = 255 ∧ ∀ a, a ≠ 0 → (s.push v).cell a = s.cell a := by
  have sp : s.reg 15#4 = 0#8 := h
  refine ⟨?_, ?_, fun a ha => ?_⟩
  · rw [State.cell_push, sp]; rfl
  · rw [State.reg_push, sp]; rfl
  · rw [State.cell_push, sp]; exact if_neg ha

/-- A pop at 255 moves `sp` to 0. -/
theorem State.reg_pop_at_255 {s : State} (h : s.reg 15 = 255) : s.pop.reg 15 = 0 := by
  have sp : s.reg 15#4 = 255#8 := h
  rw [State.reg_pop, sp]; rfl

theorem eaPop_at_255 {s : State} (h : s.reg 15 = 255) : eaPop s = 0 := State.reg_pop_at_255 h

/-- Settles O19: PSH and JSR are a push and POP and RET a pop, and each wraps. -/
theorem stackPointerWraps : Obligations.StackPointerWraps := by
  refine ⟨fun r s h => ⟨_, exec_eq (.psh r) s, State.push_at_zero h _⟩,
    fun target s h => ⟨_, exec_eq (.jsr target) s, State.push_at_zero h _⟩,
    fun r s h => ⟨_, exec_eq (.pop r) s, ?_, fun ne => ?_⟩,
    fun s h => ⟨_, exec_eq .ret s, congrArg s.cell (eaPop_at_255 h), State.reg_pop_at_255 h⟩⟩
  · show (s.pop.result r (s.cell (eaPop s))).reg r = _
    rw [State.reg_result, if_pos rfl, eaPop_at_255 h]
  · show (s.pop.result r (s.cell (eaPop s))).reg 15 = _
    rw [State.reg_result, if_neg ne.symm, State.reg_pop_at_255 h]

end Sys2Proof.Machine

/-! ### The memory image (spec/20_memory.md R44, R45; spec/60_exceptions.md R152) -/

namespace Sys2Proof.Machine

/-- Replacing the memory changes the cells and nothing else that an accessor shows. -/
theorem State.shows_with_mem (s : State) (m : Memory) :
    State.Shows { s with mem := m } (regs := s.reg) (mem := fun a => m.read a.toNat) (z := s.z) (c := s.c) (pc := s.pc)
      (cs := s.cs) (ir := s.ir) (d := s.d) :=
  ⟨fun _ => rfl, fun _ => rfl, rfl, rfl, rfl, rfl, rfl, rfl⟩

theorem loadMemory_bytes {bs : List Byte} (h : 256 ≤ bs.length) (s : State) :
    loadMemory (.bytes bs) s = .ok { s with mem := Memory.ofBytesFrom 0 (bs.take 256) } := if_neg (Nat.not_lt.mpr h)

theorem loadMemory_short {bs : List Byte} (h : bs.length < 256) (s : State) :
    loadMemory (.bytes bs) s = .error .shortInput := if_pos h

/-- R44: cell `a` of a loaded image is byte number `a` of the source. -/
theorem read_image (bs : List Byte) (a : Byte) :
    (Memory.ofBytesFrom 0 (bs.take 256)).read a.toNat = bs.getD a.toNat 0 := by
  rw [Memory.read_ofBytesFrom, if_pos (Nat.zero_le _), Nat.sub_zero, List.getD_eq_getElem?_getD,
    List.getElem?_take_of_lt a.isLt, ← List.getD_eq_getElem?_getD]

theorem loadMemory_shows {bs : List Byte} (h : 256 ≤ bs.length) (s : State) :
    ∃ t, loadMemory (.bytes bs) s = .ok t ∧
      t.Shows (regs := s.reg) (mem := fun a => bs.getD a.toNat 0) (z := s.z) (c := s.c) (pc := s.pc) (cs := s.cs)
        (ir := s.ir) (d := s.d) :=
  ⟨_, loadMemory_bytes h s, { s.shows_with_mem _ with mem := read_image bs }⟩

/-! #### Loads that fail -/

/-- A failed load changes memory at most … -/
theorem afterFailedLoad_shows (src : ImageSource) (s : State) :
    (afterFailedLoad src s).Shows (regs := s.reg) (mem := (afterFailedLoad src s).cell) (z := s.z) (c := s.c) (pc := s.pc)
      (cs := s.cs) (ir := s.ir) (d := s.d) := by
  cases src with
  | missing => exact s.shows_with_mem s.mem
  | unreadable => exact s.shows_with_mem s.mem
  | bytes bs => exact s.shows_with_mem _

/-- … and nothing at all unless its source was too short. -/
theorem afterFailedLoad_eq_self {src : ImageSource} {e : IoError} {s : State} (h : loadMemory src s = .error e)
    (long : e ≠ .shortInput) : afterFailedLoad src s = s := by
  cases src with
  | missing => rfl
  | unreadable => rfl
  | bytes bs =>
    by_cases short : bs.length < 256
    · rw [loadMemory_short short] at h
      cases h
      exact absurd rfl long
    · rw [loadMemory_bytes (Nat.not_lt.mp short)] at h
      cases h

theorem hostCall_loadMemory_of_error {src : ImageSource} {e : IoError} {s : State} (h : loadMemory src s = .error e)
    (cfg : Config) : hostCall cfg (.loadMemory src) s = (.failed e, some (afterFailedLoad src s)) := by
  simp only [hostCall, h]

/-! #### Saves -/

@[simp] theorem Memory.length_toBytes (m : Memory) : m.toBytes.length = 256 := by simp [Memory.toBytes]

theorem Memory.getD_toBytes (m : Memory) {a : Nat} (h : a < 256) : m.toBytes.getD a 0 = m.read a := by
  simp [Memory.toBytes, h]

/-- The bytes of a canonical memory lay out the same memory again: there is nothing in it beyond its 256 cells. -/
theorem Memory.ofBytesFrom_toBytes {m : Memory} (h : m.wf = true) : Memory.ofBytesFrom 0 m.toBytes = m := by
  have image : (Memory.ofBytesFrom 0 m.toBytes).wf = true := Memory.wf_ofBytesFrom _ (by simp)
  refine Memory.ext_of_read image h fun a => ?_
  by_cases ha : a < 256
  · rw [Memory.read_ofBytesFrom, if_pos (Nat.zero_le a), Nat.sub_zero, Memory.getD_toBytes m ha]
  · rw [Memory.read_above image (by omega), Memory.read_above h (by omega)]

theorem loadMemory_toBytes {m : Memory} (h : m.wf = true) (t : State) :
    loadMemory (.bytes m.toBytes) t = .ok { t with mem := m } := by
  rw [loadMemory_bytes (by simp), List.take_of_length_le (by simp), Memory.ofBytesFrom_toBytes h]

/-- Settles O50: one lemma for the good load, one for each thing a failed load leaves, and the round trip of the bytes of a
canonical memory. -/
theorem memoryImageRoundTrips : Obligations.MemoryImageRoundTrips :=
  ⟨fun _ s h => loadMemory_shows h s,
    fun _ s h => loadMemory_short h s,
    fun _ _ => ⟨rfl, rfl, rfl, _, rfl, rfl⟩,
    fun cfg src _ s h =>
      ⟨_, hostCall_loadMemory_of_error h cfg, afterFailedLoad_eq_self h, afterFailedLoad_shows src s⟩,
    fun s => ⟨_, rfl, s.mem.length_toBytes, fun a => s.mem.getD_toBytes a.isLt⟩,
    fun _ t wf => ⟨_, rfl, loadMemory_toBytes wf t⟩,
    fun s => s.shows_with_mem []⟩

/-! #### The launch -/

/-- R25: every register is 0 after a cold reset but `sp`, which is 255. -/
theorem reg_reset : ∀ q : RegIdx, State.reset.reg q = if q = 15 then 255 else 0 := by decide

/-- R45: a launched machine is the reset state with the image in memory. -/
theorem launch_shows {src : ImageSource} {s : State} (h : launch src = .ok s) :
    ∃ bs, src = .bytes bs ∧ 256 ≤ bs.length ∧
      s.Shows (regs := fun r => if r = 15 then 255 else 0) (mem := fun a => bs.getD a.toNat 0) (z := false) (c := false)
        (pc := 0) (cs := .fetch) (ir := 0) (d := ⟨0, 0, 0, 0⟩) := by
  obtain ⟨bs, source, long, rfl, -⟩ := loadMemory_ok h
  exact ⟨bs, source, long, { State.reset.shows_with_mem _ with regs := reg_reset, mem := read_image bs }⟩

/-- Settles O43: the reset state is in Fetch with canonical memory, and a launch is a load into it. -/
theorem launchMeetsTheInvariant : Obligations.LaunchMeetsTheInvariant :=
  ⟨.of_fetch State.wf_reset rfl, fun _ long => ⟨_, loadMemory_bytes long State.reset⟩,
    fun _ _ h => ⟨launch_inv h, launch_shows h⟩⟩

end Sys2Proof.Machine

/-! ### The encoder as a number (spec/30_encoding.md R52 to R59, R68) -/

namespace Sys2Proof

/-- R68's formula without its opcode term: the operands of an instruction at the places of R52 to R59. -/
def operandNumber : Instr → Nat
  | .hlt | .ret => 0
  | .adc r a b | .and r a b | .xor r a b | .rot r a b => r.toNat * 0x100 + a.toNat * 0x10 + b.toNat
  | .ldi r x | .ldm r x | .sto r x => r.toNat * 0x100 + x.toNat
  | .ldr r a | .str r a => r.toNat * 0x10 + a.toNat
  | .psh r | .pop r => r.toNat * 0x100
  | .jsr target => target.toNat
  | .bra select want target => select.toNat * 0x400 + want.toNat * 0x100 + target.toNat
  | .mdf select want => select.toNat * 0x400 + want.toNat * 0x100

/-- The operands lie below the opcode. -/
theorem operandNumber_lt (i : Instr) : operandNumber i < 0x1000 := by
  cases i <;> simp only [operandNumber] <;> omega

theorem encode_eq_ofNat (i : Instr) : encode i = BitVec.ofNat 16 (i.opcode.toNat * 0x1000 + operandNumber i) := by
  cases i <;> simp [encode, operandNumber, Instr.opcode, Nat.add_assoc]

/-- R68's formulas fit in 16 bits. -/
theorem encode_toNat (i : Instr) : (encode i).toNat = i.opcode.toNat * 0x1000 + operandNumber i := by
  have low := operandNumber_lt i
  rw [encode_eq_ofNat, BitVec.toNat_ofNat]
  omega

@[simp] theorem fieldOpcode_encode (i : Instr) : fieldOpcode (encode i) = i.opcode := by
  apply BitVec.eq_of_toNat_eq
  have low := operandNumber_lt i
  rw [fieldOpcode_toNat, encode_toNat]
  omega

/-! #### The fields of a word whose number is a formula of R68, format by format -/

section Fields

variable {w : Word} {n : Nat}

theorem fields_of_formatRST {r a b : Nibble}
    (h : w.toNat = n * 0x1000 + (r.toNat * 0x100 + a.toNat * 0x10 + b.toNat)) :
    field11to8 w = r ∧ field7to4 w = a ∧ field3to0 w = b := by
  simp only [← BitVec.toNat_inj, field11to8_toNat, field7to4_toNat, field3to0_toNat]
  omega

theorem fields_of_formatRI {r : Nibble} {x : Byte} (h : w.toNat = n * 0x1000 + (r.toNat * 0x100 + x.toNat)) :
    field11to8 w = r ∧ fieldLow8 w = x := by
  simp only [← BitVec.toNat_inj, field11to8_toNat, fieldLow8_toNat]
  omega

theorem fields_of_formatRS {r a : Nibble} (h : w.toNat = n * 0x1000 + (r.toNat * 0x10 + a.toNat)) :
    field7to4 w = r ∧ field3to0 w = a := by
  simp only [← BitVec.toNat_inj, field7to4_toNat, field3to0_toNat]
  omega

theorem field_of_formatR {r : Nibble} (h : w.toNat = n * 0x1000 + r.toNat * 0x100) : field11to8 w = r := by
  simp only [← BitVec.toNat_inj, field11to8_toNat]
  omega

theorem field_of_formatJ {target : Byte} (h : w.toNat = n * 0x1000 + target.toNat) : fieldLow8 w = target := by
  simp only [← BitVec.toNat_inj, fieldLow8_toNat]
  omega

theorem fields_of_formatB {select want : FlagPair} {target : Byte}
    (h : w.toNat = n * 0x1000 + (select.toNat * 0x400 + want.toNat * 0x100 + target.toNat)) :
    fieldSelect w = select ∧ fieldState w = want ∧ fieldLow8 w = target := by
  simp only [← BitVec.toNat_inj, fieldSelect_toNat, fieldState_toNat, fieldLow8_toNat]
  omega

theorem fields_of_formatM {select want : FlagPair}
    (h : w.toNat = n * 0x1000 + (select.toNat * 0x400 + want.toNat * 0x100)) :
    fieldSelect w = select ∧ fieldState w = want := by
  simp only [← BitVec.toNat_inj, fieldSelect_toNat, fieldState_toNat]
  omega

end Fields

/-- R68: the opcode of the encoded word picks the row, and the row's format cuts out the operands. -/
@[simp] theorem decodeWord_encode (i : Instr) : decodeWord (encode i) = i := by
  have number := encode_toNat i
  unfold decodeWord
  rw [fieldOpcode_encode]
  cases i with
  | hlt | ret => rfl
  | adc r a b | and r a b | xor r a b | rot r a b =>
    obtain ⟨hr, ha, hb⟩ := fields_of_formatRST number
    simp [Instr.opcode, Opcode.ofNibble, hr, ha, hb]
  | ldi r x | ldm r x | sto r x =>
    obtain ⟨hr, hx⟩ := fields_of_formatRI number
    simp [Instr.opcode, Opcode.ofNibble, hr, hx]
  | ldr r a | str r a =>
    obtain ⟨hr, ha⟩ := fields_of_formatRS number
    simp [Instr.opcode, Opcode.ofNibble, hr, ha]
  | psh r | pop r => simp [Instr.opcode, Opcode.ofNibble, field_of_formatR number]
  | jsr target => simp [Instr.opcode, Opcode.ofNibble, field_of_formatJ number]
  | bra select want target =>
    obtain ⟨hs, hw, ht⟩ := fields_of_formatB number
    simp [Instr.opcode, Opcode.ofNibble, hs, hw, ht]
  | mdf select want =>
    obtain ⟨hs, hw⟩ := fields_of_formatM number
    simp [Instr.opcode, Opcode.ofNibble, hs, hw]

theorem decodeBytes_encodeBytes (i : Instr) (rest : List Byte) : decodeBytes (encodeBytes i ++ rest) = .ok (i, rest) := by
  rw [encodeBytes, List.cons_append, List.singleton_append, decodeBytes_pair, decodeWord_encode]

namespace Machine

/-- A placed word lies high byte first, at the top of memory too. -/
theorem State.cell_placeWord (s : State) (a : Byte) (w : Word) :
    (s.placeWord a w).cell a = hiByte w ∧ (s.placeWord a w).cell (a + 1) = loByte w := by
  simp [State.placeWord]

/-- Settles O2: `decodeWord_encode`, the number of the encoded word, and the two cells of a placed word. -/
theorem decodeInvertsEncode : Obligations.DecodeInvertsEncode := by
  refine ⟨fun i rest => ⟨decodeWord_encode i, decodeBytes_encodeBytes i rest⟩, fun i => ?_, fun s a i => ?_⟩
  · rw [encode_toNat]
    cases i <;> simp [operandNumber, Instr.opcode, Nat.add_assoc]
  · obtain ⟨hi, lo⟩ := s.cell_placeWord a (encode i)
    rw [hi, lo, hiByte_toNat, loByte_toNat]
    exact ⟨rfl, rfl⟩

end Machine

end Sys2Proof

/-! ### The bits a format names (spec/30_encoding.md R51, R61, R64) -/

namespace Sys2Proof

open Machine (namedBits)

/-! #### The masks as numbers -/

theorem toNat_and_split (w m : Word) (k : Nat) :
    (w &&& m).toNat = (w.toNat / 2 ^ k &&& m.toNat / 2 ^ k) * 2 ^ k + (w.toNat % 2 ^ k &&& m.toNat % 2 ^ k) := by
  rw [← Nat.and_div_two_pow, ← Nat.and_mod_two_pow, BitVec.toNat_and, Nat.div_add_mod']

theorem and_0xFFFF (w : Word) : w &&& 0xFFFF = w := BitVec.and_allOnes

theorem toNat_and_0xF000 (w : Word) : (w &&& 0xF000).toNat = w.toNat / 0x1000 * 0x1000 := by
  have top : w.toNat / 2 ^ 12 &&& 0xF = w.toNat / 2 ^ 12 % 2 ^ 4 := Nat.and_two_pow_sub_one_eq_mod _ 4
  rw [toNat_and_split w 0xF000 12]
  show (w.toNat / 2 ^ 12 &&& 0xF) * 2 ^ 12 + (w.toNat % 2 ^ 12 &&& 0) = _
  rw [top, Nat.and_zero]
  omega

theorem toNat_and_0xFF00 (w : Word) : (w &&& 0xFF00).toNat = w.toNat / 0x100 * 0x100 := by
  have top : w.toNat / 2 ^ 8 &&& 0xFF = w.toNat / 2 ^ 8 % 2 ^ 8 := Nat.and_two_pow_sub_one_eq_mod _ 8
  rw [toNat_and_split w 0xFF00 8]
  show (w.toNat / 2 ^ 8 &&& 0xFF) * 2 ^ 8 + (w.toNat % 2 ^ 8 &&& 0) = _
  rw [top, Nat.and_zero]
  omega

theorem toNat_and_0xF0FF (w : Word) : (w &&& 0xF0FF).toNat = w.toNat / 0x1000 * 0x1000 + w.toNat % 0x100 := by
  have top : w.toNat / 2 ^ 12 &&& 0xF = w.toNat / 2 ^ 12 % 2 ^ 4 := Nat.and_two_pow_sub_one_eq_mod _ 4
  have low : w.toNat % 2 ^ 12 &&& 0xFF = w.toNat % 2 ^ 12 % 2 ^ 8 := Nat.and_two_pow_sub_one_eq_mod _ 8
  rw [toNat_and_split w 0xF0FF 12]
  show (w.toNat / 2 ^ 12 &&& 0xF) * 2 ^ 12 + (w.toNat % 2 ^ 12 &&& 0xFF) = _
  rw [top, low]
  omega

/-- Every format names the opcode, so masking keeps it. -/
theorem fieldOpcode_and_namedBits (w : Word) (n : Nibble) : fieldOpcode (w &&& namedBits n) = fieldOpcode w := by
  have named : ∀ n : Nibble, fieldOpcode (namedBits n) = BitVec.allOnes 4 := by decide
  calc fieldOpcode (w &&& namedBits n)
    _ = fieldOpcode w &&& fieldOpcode (namedBits n) := BitVec.extractLsb'_and
    _ = fieldOpcode w := by rw [named, BitVec.and_allOnes]

theorem encode_decodeWord_toNat (w : Word) :
    (encode (decodeWord w)).toNat = w.toNat / 0x1000 * 0x1000 + operandNumber (decodeWord w) := by
  rw [encode_toNat, opcode_decodeWord, fieldOpcode_toNat]

/-- R64: the named bits of a word are its opcode and its operands, so encoding what was decoded clears the others and
no more. -/
theorem encode_decodeWord (w : Word) : encode (decodeWord w) = w &&& namedBits (fieldOpcode w) := by
  apply BitVec.eq_of_toNat_eq
  rw [encode_decodeWord_toNat, ← opcode_decodeWord]
  unfold decodeWord
  cases Opcode.ofNibble (fieldOpcode w) with
  | hlt | ret =>
    rw [operandNumber, Nat.add_zero]
    exact (toNat_and_0xF000 w).symm
  | adc | and | xor | rot | ldi | ldm | sto | bra =>
    show _ = (w &&& 0xFFFF).toNat
    simp only [and_0xFFFF, operandNumber, field11to8_toNat, field7to4_toNat, field3to0_toNat, fieldLow8_toNat,
      fieldSelect_toNat, fieldState_toNat]
    omega
  | ldr | str =>
    refine .trans ?_ (toNat_and_0xF0FF w).symm
    simp only [operandNumber, field7to4_toNat, field3to0_toNat]
    omega
  | jsr =>
    rw [operandNumber, fieldLow8_toNat]
    exact (toNat_and_0xF0FF w).symm
  | psh | pop | mdf =>
    refine .trans ?_ (toNat_and_0xFF00 w).symm
    simp only [operandNumber, field11to8_toNat, fieldSelect_toNat, fieldState_toNat]
    omega

/-- Agreement on the bits of a mask, as the equality of the masked words. -/
theorem xor_and_eq_zero_iff (v w m : Word) : (v ^^^ w) &&& m = 0 ↔ v &&& m = w &&& m := by
  have distrib : (v ^^^ w) &&& m = (v &&& m) ^^^ (w &&& m) := by
    ext i
    simp [Bool.and_xor_distrib_right]
  rw [distrib]
  exact BitVec.xor_eq_zero_iff

/-- Words that agree on the named bits of any format have one opcode. -/
theorem fieldOpcode_eq_of_and_namedBits_eq {v w : Word} {n : Nibble} (h : v &&& namedBits n = w &&& namedBits n) :
    fieldOpcode v = fieldOpcode w := by
  rw [← fieldOpcode_and_namedBits v n, h, fieldOpcode_and_namedBits]

/-- Two words decode alike when their canonical words are one, and these are the masked words (`encode_decodeWord`). -/
theorem decodeWord_eq_iff (v w : Word) :
    decodeWord v = decodeWord w ↔ v &&& namedBits (fieldOpcode v) = w &&& namedBits (fieldOpcode v) := by
  constructor
  · intro same
    have opcodes : fieldOpcode v = fieldOpcode w := by rw [← opcode_decodeWord, same, opcode_decodeWord]
    rw [← encode_decodeWord, same, encode_decodeWord, opcodes]
  · intro agree
    have opcodes := fieldOpcode_eq_of_and_namedBits_eq agree
    calc decodeWord v
      _ = decodeWord (encode (decodeWord v)) := (decodeWord_encode _).symm
      _ = decodeWord (encode (decodeWord w)) := by rw [encode_decodeWord, agree, opcodes, ← encode_decodeWord]
      _ = decodeWord w := decodeWord_encode _

/-- Settles O3: agreement on the named bits is equality of the canonical words. -/
theorem decodingReadsExactlyTheNamedBits : Obligations.DecodingReadsExactlyTheNamedBits :=
  ⟨fun v w => (decodeWord_eq_iff v w).trans (xor_and_eq_zero_iff v w _).symm, encode_decodeWord⟩

/-- R51: the mask 0xF000 and the match `opcode << 12` of a row single out its opcode. -/
theorem fieldOpcode_eq_iff (w : Word) (n : Nibble) :
    fieldOpcode w = n ↔ w &&& (0xF000 : Word) = (n.setWidth 16 : Word) <<< 12 := by
  have shifted : ((n.setWidth 16 : Word) <<< 12).toNat = n.toNat * 0x1000 := by
    simp only [BitVec.toNat_shiftLeft, BitVec.toNat_setWidth, Nat.shiftLeft_eq]
    omega
  rw [← BitVec.toNat_inj, ← BitVec.toNat_inj, fieldOpcode_toNat, toNat_and_0xF000, shifted]
  omega

/-- Settles O4: the decoded instruction's opcode is the top nibble, which the row's mask compares. -/
theorem opcodeIsTheTopNibble : Obligations.OpcodeIsTheTopNibble :=
  ⟨opcode_decodeWord, fun w i => by
    rw [opcode_decodeWord]
    exact fieldOpcode_eq_iff w i.opcode⟩

/-- Settles O1: the sixteen vectors are the decoder's values at sixteen closed words. -/
theorem specWordsDecode : Obligations.SpecWordsDecode := by
  unfold Obligations.SpecWordsDecode
  decide

end Sys2Proof

/-! ### Execute and the sub-step under any parameters (spec/00_scope.md R5; spec/40_cycle_engine.md R71, R74, R75) -/

namespace Sys2Proof.Machine

/-- The instruction with ROT's third field replaced by the control nibble that `ROT_CTRL_SOURCE` selects (R69). -/
def selectControl (cfg : Config) (s : State) (i : Instr) : Instr :=
  match i with
  | .rot r a t => .rot r a (rotControl cfg.rotCtrlSource s t)
  | _ => i

/-- `nextPc` under any parameters: only HLT reads one. -/
def nextPcWith (cfg : Config) (i : Instr) (s : State) : Byte :=
  match i with
  | .hlt => s.pc + cfg.hltPcAdvance.amount
  | _ => nextPc i s

/-- `exec_eq` under any parameters. -/
theorem execWith_eq (cfg : Config) (i : Instr) (s : State) :
    execWith cfg i s =
      .next (((execEffect (selectControl cfg s i) s).setPc (nextPcWith cfg i s)).setCs (nextCs i)) := by
  cases i with
  | hlt => rfl
  | rot r a t => exact exec_eq (.rot r a (rotControl cfg.rotCtrlSource s t)) s
  | bra select want target => exact exec_eq (.bra select want target) s
  | _ => rfl

section SubStep

variable {cfg : Config} {s : State}

theorem subStepWith_fetch (h : s.cs = .fetch) : subStepWith cfg s = .next (fetchPhase s) := by
  simp only [subStepWith, subStepOver, h]

theorem subStepWith_decode (h : s.cs = .decode) : subStepWith cfg s = .next (decodePhase s) := by
  simp only [subStepWith, subStepOver, h]

theorem subStepWith_execute (h : s.cs = .execute) : subStepWith cfg s = execWith cfg (pendingInstr s) s := by
  simp only [subStepWith, subStepOver, h]

theorem subStepWith_halt (h : s.cs = .halt) : subStepWith cfg s = .next s := by
  simp only [subStepWith, subStepOver, h]

end SubStep

theorem nextCs_eq (i : Instr) : nextCs i = .fetch ∨ nextCs i = .halt := by
  cases i with
  | hlt => exact .inr rfl
  | _ => exact .inl rfl

/-- An Execute, under any parameters, ends the cycle. -/
theorem subStepWith_execute_next (cfg : Config) {s : State} (h : s.cs = .execute) :
    ∃ t, subStepWith cfg s = .next t ∧ (t.cs = .fetch ∨ t.cs = .halt) :=
  ⟨_, (subStepWith_execute h).trans (execWith_eq _ _ _), nextCs_eq _⟩

end Sys2Proof.Machine

/-! ### `full_step` (spec/40_cycle_engine.md R77) -/

namespace Sys2Proof.Machine

section FullStep

variable {cfg : Config} {s : State}

theorem fullStep_halt (h : s.cs = .halt) : fullStep cfg s = .next s := if_pos h

theorem fullStep_of_not_halt (h : s.cs ≠ .halt) : fullStep cfg s = untilExecuted (subStepWith cfg) 3 s := if_neg h

/-- The sub-steps of a full step end with an Execute. -/
theorem untilExecuted_execute (h : s.cs = .execute) (fuel : Nat) :
    untilExecuted (subStepWith cfg) (fuel + 1) s = subStepWith cfg s := by
  obtain ⟨t, executed, -⟩ := subStepWith_execute_next cfg h
  rw [untilExecuted, executed, andThen_next, if_pos h]

/-- They go on after any other sub-step. -/
theorem untilExecuted_next {t : State} (h : s.cs ≠ .execute) (hs : subStepWith cfg s = .next t) (fuel : Nat) :
    untilExecuted (subStepWith cfg) (fuel + 1) s = untilExecuted (subStepWith cfg) fuel t := by
  rw [untilExecuted, hs, andThen_next, if_neg h]

theorem fullStep_execute (h : s.cs = .execute) : fullStep cfg s = subStepWith cfg s := by
  rw [fullStep_of_not_halt (by simp [h]), untilExecuted_execute h]

theorem fullStep_decode (h : s.cs = .decode) : fullStep cfg s = subStepWith cfg (decodePhase s) := by
  rw [fullStep_of_not_halt (by simp [h]), untilExecuted_next (by simp [h]) (subStepWith_decode h),
    untilExecuted_execute (decodePhase_cs s)]

theorem fullStep_fetch (h : s.cs = .fetch) : fullStep cfg s = subStepWith cfg (decodePhase (fetchPhase s)) := by
  rw [fullStep_of_not_halt (by simp [h]), untilExecuted_next (by simp [h]) (subStepWith_fetch h),
    untilExecuted_next (by simp) (subStepWith_decode (fetchPhase_cs s)), untilExecuted_execute (decodePhase_cs _)]

end FullStep

/-- Settles O34: outside Halt a full step is its Execute, which ends in Fetch or Halt, after the sub-steps before it. -/
theorem fullStepRunsThroughOneExecute : Obligations.FullStepRunsThroughOneExecute := by
  intro cfg s
  cases hcs : s.cs with
  | fetch =>
    rw [fullStep_fetch hcs, subStepWith_fetch hcs, andThen_next, subStepWith_decode (fetchPhase_cs s), andThen_next]
    exact ⟨rfl, subStepWith_execute_next cfg (decodePhase_cs _)⟩
  | decode =>
    rw [fullStep_decode hcs, subStepWith_decode hcs, andThen_next]
    exact ⟨rfl, subStepWith_execute_next cfg (decodePhase_cs _)⟩
  | execute =>
    rw [fullStep_execute hcs]
    exact ⟨rfl, subStepWith_execute_next cfg hcs⟩
  | halt => exact ⟨fullStep_halt hcs, s, fullStep_halt hcs, .inr hcs⟩

end Sys2Proof.Machine

/-! ### Runs until Halt (spec/40_cycle_engine.md R78, R79) -/

namespace Sys2Proof.Machine

/-- A run by `go` halts, under some fuel, in `t`. -/
def HaltsAt (go : State → Result) (s t : State) : Prop := ∃ fuel, runUntilHalt go fuel s = some t

section Runs

variable {go : State → Result} {s t u : State}

theorem runUntilHalt_halt (h : s.cs = .halt) (fuel : Nat) : runUntilHalt go fuel s = some s := by
  cases fuel with
  | zero => exact if_pos h
  | succ fuel => exact if_pos h

theorem runUntilHalt_zero (h : s.cs ≠ .halt) : runUntilHalt go 0 s = none := if_neg h

theorem runUntilHalt_succ (h : s.cs ≠ .halt) (hs : go s = .next u) (fuel : Nat) :
    runUntilHalt go (fuel + 1) s = runUntilHalt go fuel u := by
  rw [runUntilHalt, if_neg h, hs]

theorem haltsAt_halt (h : s.cs = .halt) : HaltsAt go s t ↔ t = s := by
  simp [HaltsAt, runUntilHalt_halt h, eq_comm]

/-- Outside Halt a run halts where it halts from the next state. -/
theorem haltsAt_next (h : s.cs ≠ .halt) (hs : go s = .next u) : HaltsAt go s t ↔ HaltsAt go u t := by
  constructor
  · rintro ⟨fuel, run⟩
    cases fuel with
    | zero =>
      rw [runUntilHalt_zero h] at run
      cases run
    | succ n => exact ⟨n, (runUntilHalt_succ h hs n).symm.trans run⟩
  · rintro ⟨fuel, run⟩
    exact ⟨fuel + 1, (runUntilHalt_succ h hs fuel).trans run⟩

/-- Induction over a run that halts, from its end backwards. -/
theorem HaltsAt.induction {P : State → Prop} (halted : t.cs = .halt → P t)
    (moved : ∀ {s u}, s.cs ≠ .halt → go s = .next u → P u → P s) (h : HaltsAt go s t) : P s := by
  obtain ⟨fuel, run⟩ := h
  induction fuel generalizing s with
  | zero =>
    by_cases hcs : s.cs = .halt
    · obtain rfl := (haltsAt_halt hcs).mp ⟨0, run⟩
      exact halted hcs
    · rw [runUntilHalt_zero hcs] at run
      cases run
  | succ n ih =>
    by_cases hcs : s.cs = .halt
    · obtain rfl := (haltsAt_halt hcs).mp ⟨n + 1, run⟩
      exact halted hcs
    · cases hs : go s with
      | next u => exact moved hcs hs (ih ((runUntilHalt_succ hcs hs n).symm.trans run))
      | fault e => cases e
      | refused e => simp [runUntilHalt, hcs, hs] at run

theorem HaltsAt.cs (h : HaltsAt go s t) : t.cs = .halt :=
  h.induction (P := fun _ => t.cs = .halt) id fun _ _ => id

/-- Two runs by one operation end in one state: fuel decides only whether a run ends. -/
theorem HaltsAt.unique (h : HaltsAt go s t) : HaltsAt go s u → t = u :=
  h.induction (P := fun s => HaltsAt go s u → t = u) (fun hcs h' => ((haltsAt_halt hcs).mp h').symm)
    fun hcs hs ih h' => ih ((haltsAt_next hcs hs).mp h')

/-- A run ends where another does if none of its moves changes where the other ends. -/
theorem HaltsAt.transfer {go' : State → Result} (h : HaltsAt go s t)
    (moves : ∀ {s u}, go s = .next u → (HaltsAt go' s t ↔ HaltsAt go' u t)) : HaltsAt go' s t :=
  h.induction (P := (HaltsAt go' · t)) (fun hcs => (haltsAt_halt hcs).mpr rfl) fun _ hs => (moves hs).mpr

end Runs

section Agreement

variable {cfg : Config} {s t u : State}

/-- A run by `sub_step` halts where it halts after one `full_step`. -/
theorem haltsAt_subStep_fullStep (h : fullStep cfg s = .next u) :
    HaltsAt (subStepWith cfg) s t ↔ HaltsAt (subStepWith cfg) u t := by
  cases hcs : s.cs with
  | fetch =>
    rw [fullStep_fetch hcs] at h
    rw [haltsAt_next (by simp [hcs]) (subStepWith_fetch hcs),
      haltsAt_next (by simp) (subStepWith_decode (fetchPhase_cs s)), haltsAt_next (by simp) h]
  | decode =>
    rw [fullStep_decode hcs] at h
    rw [haltsAt_next (by simp [hcs]) (subStepWith_decode hcs), haltsAt_next (by simp) h]
  | execute =>
    rw [fullStep_execute hcs] at h
    exact haltsAt_next (by simp [hcs]) h
  | halt =>
    rw [fullStep_halt hcs] at h
    cases h
    exact .rfl

/-- A run by `full_step` halts where it halts after one `sub_step`: a Fetch or a Decode leaves the next full
step the same. -/
theorem haltsAt_fullStep_subStep (h : subStepWith cfg s = .next u) :
    HaltsAt (fullStep cfg) s t ↔ HaltsAt (fullStep cfg) u t := by
  cases hcs : s.cs with
  | fetch =>
    obtain ⟨v, executed, -⟩ := subStepWith_execute_next cfg (decodePhase_cs (fetchPhase s))
    cases (subStepWith_fetch hcs).symm.trans h
    rw [haltsAt_next (by simp [hcs]) ((fullStep_fetch hcs).trans executed),
      haltsAt_next (by simp) ((fullStep_decode (fetchPhase_cs s)).trans executed)]
  | decode =>
    obtain ⟨v, executed, -⟩ := subStepWith_execute_next cfg (decodePhase_cs s)
    cases (subStepWith_decode hcs).symm.trans h
    rw [haltsAt_next (by simp [hcs]) ((fullStep_decode hcs).trans executed),
      haltsAt_next (by simp) ((fullStep_execute (decodePhase_cs s)).trans executed)]
  | execute => exact haltsAt_next (by simp [hcs]) ((fullStep_execute hcs).trans h)
  | halt =>
    cases (subStepWith_halt hcs).symm.trans h
    exact .rfl

end Agreement

/-- Settles O35: a move of either run leaves the end of the other where it was, and the pacing hint is no part of a run. -/
theorem runPartAndRunFullAgree : Obligations.RunPartAndRunFullAgree :=
  ⟨fun _ _ _ _ _ => ⟨(HaltsAt.transfer · haltsAt_fullStep_subStep), (HaltsAt.transfer · haltsAt_subStep_fullStep)⟩,
    fun _ _ fuel _ _ run => HaltsAt.cs ⟨fuel, run⟩,
    fun _ _ _ fuel fuel' _ _ _ run run' => HaltsAt.unique ⟨fuel, run⟩ ⟨fuel', run'⟩⟩

end Sys2Proof.Machine

/-! ### The transitions of the cycle state and Halt (spec/40_cycle_engine.md R70, R76) -/

namespace Sys2Proof.Machine

/-- HLT has the opcode 0 to itself (R63). -/
theorem opcode_eq_zero_iff (i : Instr) : i.opcode = 0 ↔ i = .hlt := by
  cases i <;> simp [Instr.opcode]

theorem nextCs_of_ne_hlt {i : Instr} (h : i ≠ .hlt) : nextCs i = .fetch :=
  not_not.mp fun halts => h (eq_hlt_of_nextCs halts)

/-- With the scratch fields a Decode left, Execute runs the instruction in `ir`. -/
theorem step_execute_of_coherent {s : State} (coherent : s.ScratchCoherent) (h : s.cs = .execute) :
    step s = exec (decodeWord s.ir) s := by
  rw [step_execute h, pendingInstr_of_d (coherent.1 h)]

/-- With those scratch fields, `d[0] = 0` says that the instruction in `ir` is HLT. -/
theorem d0_eq_zero_iff {s : State} (coherent : s.ScratchCoherent) (h : s.cs = .execute) :
    s.d.d0 = 0 ↔ decodeWord s.ir = .hlt := by
  rw [coherent.1 h, scratchOf_d0, ← opcode_eq_zero_iff]
  bv_omega

/-- Settles O31: one equation of `step` per cycle state; an Execute goes to Halt for HLT, whose opcode is `d[0] = 0`. -/
theorem cycleMovesAsTheTableSays : Obligations.CycleMovesAsTheTableSays := by
  refine ⟨fun s h => ⟨_, step_fetch h, rfl⟩, fun s h => ⟨_, step_decode h, rfl⟩, fun s coherent h d0 => ?_,
    fun s coherent h d0 => ?_, fun s h => step_halt h, rfl, fun _ _ => rfl⟩
  all_goals rw [step_execute_of_coherent coherent h, exec_eq]
  · exact ⟨_, rfl, nextCs_of_ne_hlt (mt (d0_eq_zero_iff coherent h).mpr d0)⟩
  · rw [(d0_eq_zero_iff coherent h).mp d0]
    exact ⟨_, rfl, rfl⟩

/-- HLT changes `pc` and the cycle state. -/
theorem execEffect_hlt_shows (s : State) (pc : Byte) :
    (((execEffect .hlt s).setPc pc).setCs .halt).Shows (regs := s.reg) (mem := s.cell) (z := s.z) (c := s.c) (pc := pc)
      (cs := .halt) (ir := s.ir) (d := s.d) :=
  ⟨fun _ => rfl, fun _ => rfl, rfl, rfl, rfl, rfl, rfl, rfl⟩

/-- Settles O32: in Halt no run moves; a step enters Halt by the HLT in `ir`; the host's operations do not ask for the cycle
state. -/
theorem haltIsTerminalForStepping : Obligations.HaltIsTerminalForStepping := by
  refine ⟨fun s h => ⟨step_halt h, fun cfg _ fuel => ⟨subStepWith_halt h, fullStep_halt h, runUntilHalt_halt h fuel,
    runUntilHalt_halt h fuel⟩⟩, fun s t coherent h stepped halted => ?_,
    fun s _ => ⟨fun _ => rfl, fun _ => rfl, fun bs long => ?_⟩⟩
  · rw [step_execute_of_coherent coherent h] at stepped
    obtain rfl := eq_of_exec stepped
    have hlt : decodeWord s.ir = .hlt := eq_hlt_of_nextCs (by rw [show nextCs _ = .halt from halted]; decide)
    have d0 := (d0_eq_zero_iff coherent h).mpr hlt
    rw [hlt]
    exact ⟨execEffect_hlt_shows s _, hlt, d0⟩
  · obtain ⟨t, loaded, shows⟩ := loadMemory_shows long s
    exact ⟨t, loaded, shows.mem⟩

end Sys2Proof.Machine

/-! ### `pc` after each sub-step (spec/40_cycle_engine.md R75; spec/10_state.md R13) -/

namespace Sys2Proof.Machine

/-- A pop reads the cell after the one `sp` addresses (R112). -/
theorem eaPop_eq (s : State) : eaPop s = s.reg 15 + 1 := (s.reg_pop 15).trans (if_pos rfl)

/-- R122: a branch is taken when each selected flag has the wanted value. -/
theorem branchTaken_iff : ∀ (select want : FlagPair) (z c : Bool), branchTaken select want z c = true ↔
    (select.getLsbD 1 → z = want.getLsbD 1) ∧ (select.getLsbD 0 → c = want.getLsbD 0) := by
  decide

/-- Settles O39: `nextPcWith` is R75's table, and the other sub-steps have no `pc` in what they write. -/
theorem onlyExecuteMovesThePc : Obligations.OnlyExecuteMovesThePc := by
  refine ⟨fun cfg i s => ⟨_, execWith_eq cfg i s, ?_⟩, fun s t h notExecute => ?_⟩
  · show nextPcWith cfg i s = _
    cases i with
    | hlt => cases advance : cfg.hltPcAdvance <;> simp [nextPcWith, advance, HltPcAdvance.amount]
    | ret => exact congrArg s.cell (eaPop_eq s)
    | bra select want target => simp only [nextPcWith, nextPc, branchTaken_iff]
    | _ => rfl
  · obtain ⟨-, rfl⟩ | ⟨-, rfl⟩ | ⟨hcs, -⟩ | ⟨-, rfl⟩ := step_cases h
    · rfl
    · rfl
    · exact absurd hcs notExecute
    · rfl

/-! ### Execute does not look at `ir` and `d[0..3]` (spec/40_cycle_engine.md R74) -/

theorem execEffect_with_ir_d (i : Instr) (s : State) (w : Word) (e : Scratch) :
    execEffect i { s with ir := w, d := e } = { execEffect i s with ir := w, d := e } := by
  cases i with
  | rot r a ctl =>
    simp only [execEffect]
    unfold rotEffect
    split <;> rfl
  | _ => rfl

theorem nextPc_with_ir_d (i : Instr) (s : State) (w : Word) (e : Scratch) :
    nextPc i { s with ir := w, d := e } = nextPc i s := by
  cases i <;> rfl

/-- Settles O40: the effect of an instruction commutes with a change of `ir` and `d[0..3]`, and its `pc` is the same. -/
theorem executeIsBlindToIrAndScratch : Obligations.ExecuteIsBlindToIrAndScratch := by
  intro i s t w e h
  obtain rfl := eq_of_exec h
  refine ⟨execEffect_ir i s, execEffect_d i s, ?_⟩
  rw [exec_eq, execEffect_with_ir_d, nextPc_with_ir_d]
  rfl

end Sys2Proof.Machine

/-! ### Fetch, Decode and the instruction they bring to Execute (spec/40_cycle_engine.md R72, R73) -/

namespace Sys2Proof

/-- R32: the opcode of a word is the high nibble of its high byte. -/
theorem fieldOpcode_wordOfBytes (hi lo : Byte) : fieldOpcode (wordOfBytes hi lo) = hi.extractLsb' 4 4 := by
  apply BitVec.eq_of_toNat_eq
  rw [fieldOpcode_toNat, wordOfBytes_toNat, BitVec.extractLsb'_toNat, Nat.shiftRight_eq_div_pow]
  omega

/-! #### R67's table over numbers: the fields of a word `w` with opcode `op` -/

/-- The column of `d[1]`. -/
def tableD1 (op w : Nat) : Nat :=
  if op ∈ [1, 2, 3, 4, 5, 6, 8, 10, 11] then w / 256 % 16 else if op ∈ [7, 9] then w / 16 % 16
  else if op = 12 then w % 256 else if op ∈ [14, 15] then w / 1024 % 4 else 0

/-- The column of `d[2]`. -/
def tableD2 (op w : Nat) : Nat :=
  if op ∈ [1, 2, 3, 4] then w / 16 % 16 else if op ∈ [5, 6, 8] then w % 256
  else if op ∈ [7, 9] then w % 16 else if op ∈ [14, 15] then w / 256 % 4 else 0

/-- The column of `d[3]`. -/
def tableD3 (op w : Nat) : Nat := if op ∈ [1, 2, 3, 4] then w % 16 else if op = 14 then w % 256 else 0

/-- A field narrower than 8 bits, zero-extended, is the same number. -/
theorem toNat_scratch_nibble (r : Nibble) : (r.setWidth 8 : Byte).toNat = r.toNat := by
  rw [BitVec.toNat_setWidth]
  omega

theorem toNat_scratch_pair (p : FlagPair) : (p.setWidth 8 : Byte).toNat = p.toNat := by
  rw [BitVec.toNat_setWidth]
  omega

/-- R67: the row of the word's opcode, each field a number. -/
theorem scratchOf_decodeWord_toNat (w : Word) :
    let op := w.toNat / 4096
    (scratchOf (decodeWord w)).d0.toNat = op ∧
    (scratchOf (decodeWord w)).d1.toNat = tableD1 op w.toNat ∧
    (scratchOf (decodeWord w)).d2.toNat = tableD2 op w.toNat ∧
    (scratchOf (decodeWord w)).d3.toNat = tableD3 op w.toNat := by
  rw [← fieldOpcode_toNat, ← opcode_decodeWord, scratchOf_d0, toNat_scratch_nibble]
  refine ⟨rfl, ?_⟩
  unfold decodeWord
  cases Opcode.ofNibble (fieldOpcode w) <;>
    simp [scratchOf, Instr.opcode, tableD1, tableD2, tableD3, toNat_scratch_nibble,
      toNat_scratch_pair, field11to8_toNat, field7to4_toNat, field3to0_toNat, fieldLow8_toNat, fieldSelect_toNat,
      fieldState_toNat, -BitVec.toNat_setWidth]

namespace Machine

/-- Settles O27: a Fetch writes `ir` and the cycle state, and the opcode is in the word's high byte. -/
theorem fetchLatchesTheWordHighByteFirst : Obligations.FetchLatchesTheWordHighByteFirst := fun _ h =>
  ⟨_, step_fetch h, ⟨fun _ => rfl, fun _ => rfl, rfl, rfl, rfl, rfl, rfl, rfl⟩, fieldOpcode_wordOfBytes _ _⟩

/-- Settles O28: a Decode writes `d[0..3]` and the cycle state, and `scratchOf_decodeWord_toNat` has the numbers. -/
theorem decodeFillsTheScratchFields : Obligations.DecodeFillsTheScratchFields := by
  intro s h
  refine ⟨_, step_decode h, fun _ => rfl, fun _ => rfl, rfl, rfl, rfl, rfl, rfl, ?_⟩
  obtain ⟨d0, d1, d2, d3⟩ := scratchOf_decodeWord_toNat s.ir
  show scratchOf (decodeWord s.ir) = ⟨_, BitVec.ofNat 8 (tableD1 _ _), BitVec.ofNat 8 (tableD2 _ _),
    BitVec.ofNat 8 (tableD3 _ _)⟩
  rw [← d1, ← d2, ← d3, ← d0]
  simp only [BitVec.ofNat_toNat, BitVec.setWidth_eq]

/-- Settles O29: `pendingInstr` reads back what Decode wrote, and from Fetch the first two steps are a Fetch and a Decode. -/
theorem stepsExecuteTheFetchedInstruction : Obligations.StepsExecuteTheFetchedInstruction := by
  refine ⟨fun s i h fields => ?_, fun s i h decoded => ?_⟩
  · rw [step_execute h, pendingInstr_of_d fields]
  · obtain rfl : decodeWord (fetchWord s) = i := by
      cases decoded
      rfl
    exact runSteps_three_of_fetch h

/-- A whole word is its own table word. -/
@[simp] theorem tableWord_toNat (w : Word) : tableWord 16 w.toNat = w := by
  rw [tableWord, Nat.mod_eq_of_lt w.isLt, BitVec.ofNat_toNat, BitVec.setWidth_eq]

theorem cell_readyToExecute (s : State) (w : Word) :
    (readyToExecute s w).cell = Function.update (Function.update s.cell s.pc (hiByte w)) (s.pc + 1) (loByte w) := by
  funext a
  simp only [readyToExecute_cell, State.placeWord, State.cell_setCell, Function.update_apply]

/-- Settles O30: the placed word is fetched and decoded, so the next step executes it. -/
theorem placedWordRunsNext : Obligations.PlacedWordRunsNext := by
  intro s w
  have placed : s.withFetchWord 16 w.toNat = readyToExecute s w := by rw [State.withFetchWord, tableWord_toNat]
  rw [placed]
  refine ⟨?_, ?_, readyToExecute_reg s w, congrFun (cell_readyToExecute s w), readyToExecute_z s w, readyToExecute_c s w,
    readyToExecute_pc s w, readyToExecute_cs s w, readyToExecute_ir s w, readyToExecute_d s w⟩
  · rw [decodeTableWord, tableWord_toNat, decodeBytes_pair]
    rfl
  · rw [step_execute (readyToExecute_cs s w), pendingInstr_of_d (readyToExecute_d s w)]

end Machine

end Sys2Proof

/-! ### The pseudocode of section 7 (spec/40_cycle_engine.md): a simulation by `State.view` -/

namespace Sys2Proof

/-- A scratch field no wider than its operand comes back whole from the operand. -/
theorem scratch_nibble_setWidth {x : Byte} (h : x.toNat ≤ 15) : (x.setWidth 4).setWidth 8 = x := by
  apply BitVec.eq_of_toNat_eq
  simp only [BitVec.toNat_setWidth]
  omega

theorem scratch_pair_setWidth {x : Byte} (h : x.toNat ≤ 3) : (x.setWidth 2).setWidth 8 = x := by
  apply BitVec.eq_of_toNat_eq
  simp only [BitVec.toNat_setWidth]
  omega

/-- Every well-formed quadruple is what Decode writes for the instruction Execute reads from it (R67). -/
theorem scratchOf_instrOfScratch {d : Scratch} (h : d.wellFormed = true) : scratchOf (instrOfScratch d) = d := by
  obtain ⟨d0, d1, d2, d3⟩ := d
  unfold Scratch.wellFormed at h
  split at h
  case h_17 => cases h
  all_goals
    next opcode =>
    obtain ⟨-, rfl⟩ := BitVec.toNat_eq_nat.mp opcode
    simp only [Bool.and_eq_true, decide_eq_true_eq, beq_iff_eq] at h
    simp [instrOfScratch, scratchOf, Opcode.ofNibble, Instr.opcode, scratch_nibble_setWidth, scratch_pair_setWidth, h]

namespace Machine

/-! #### Each operation of the machine as an assignment of the pseudocode -/

theorem bool01_eq (p : Bool) : bool01 p = p.toNat := by cases p <;> rfl

/-- Z of a byte, as the pseudocode computes it. -/
theorem bool01_toNat_beq_zero (v : Byte) : bool01 (v.toNat == 0) = (decide (v = 0)).toNat := by
  rw [bool01_eq]
  congr 1
  rw [Bool.eq_iff_iff, beq_iff_eq, decide_eq_true_iff]
  bv_omega

section View

variable (s : State)

@[simp] theorem view_x (r : RegIdx) : s.view.x r.toNat = (s.reg r).toNat := by
  simp [State.view, r.isLt]

/-- `sp` is `x[15]`. -/
@[simp] theorem view_x_15 : s.view.x 15 = (s.reg 15#4).toNat := view_x s 15#4

@[simp] theorem view_M (a : Byte) : s.view.M a.toNat = (s.cell a).toNat := rfl

theorem view_setReg (r : RegIdx) (v : Byte) : (s.setReg r v).view = { s.view with x := put s.view.x r.toNat v.toNat } := by
  have registers : (s.setReg r v).view.x = put s.view.x r.toNat v.toNat := by
    funext i
    by_cases hi : i < 16
    · have index : BitVec.ofNat 4 i = r ↔ i = r.toNat := by
        rw [← BitVec.toNat_inj, BitVec.toNat_ofNat, Nat.mod_eq_of_lt hi]
      simp only [State.view, put, if_pos hi, State.reg_setReg, index]
      split <;> rfl
    · have above : i ≠ r.toNat := by omega
      simp only [State.view, put, if_neg hi, if_neg above]
  exact congrArg (fun x => { s.view with x := x }) registers

theorem view_setCell (a v : Byte) : (s.setCell a v).view = { s.view with M := put s.view.M a.toNat v.toNat } := by
  have cells : (s.setCell a v).view.M = put s.view.M a.toNat v.toNat := by
    funext k
    simp only [State.view, put, State.setCell_mem, Memory.read_write]
    split <;> rfl
  exact congrArg (fun M => { s.view with M := M }) cells

theorem view_setSp (v : Byte) : (s.setSp v).view = { s.view with x := put s.view.x 15 v.toNat } := view_setReg s 15#4 v

theorem view_setZ (b : Bool) : (s.setZ b).view = { s.view with z := b.toNat } := rfl

theorem view_setC (b : Bool) : (s.setC b).view = { s.view with c := b.toNat } := rfl

theorem view_setPc (a : Byte) : (s.setPc a).view = { s.view with pc := a.toNat } := rfl

theorem view_setCs (k : CycleState) : (s.setCs k).view = { s.view with cs := k } := rfl

theorem view_result (r : RegIdx) (v : Byte) :
    (s.result r v).view = { s.view with x := put s.view.x r.toNat v.toNat, z := bool01 (v.toNat == 0) } := by
  rw [State.result, view_setZ, view_setReg, bool01_toNat_beq_zero]

theorem view_store (a v : Byte) :
    (s.store a v).view = { s.view with M := put s.view.M a.toNat v.toNat, z := bool01 (v.toNat == 0) } := by
  rw [State.store, view_setZ, view_setCell, bool01_toNat_beq_zero]

theorem view_push (v : Byte) :
    (s.push v).view =
      { s.view with
          M := put s.view.M (s.view.x 15) v.toNat
          x := put s.view.x 15 ((s.view.x 15 + 255) % 256) } := by
  have moved : (s.reg 15#4 - 1).toNat = ((s.reg 15#4).toNat + 255) % 256 := by bv_omega
  rw [State.push, view_setSp, view_setCell, State.sp_eq, moved, view_x_15]

theorem view_pop : s.pop.view = { s.view with x := put s.view.x 15 ((s.view.x 15 + 1) % 256) } := by
  rw [State.pop, view_setSp, State.sp_eq, view_x_15, BitVec.toNat_add]
  rfl

/-- The byte a pop reads. -/
theorem view_M_eaPop : s.view.M ((s.view.x 15 + 1) % 256) = (s.cell (eaPop s)).toNat := by
  rw [eaPop_eq, ← view_M, BitVec.toNat_add, view_x_15]
  rfl

end View

/-! #### Fetch and Decode -/

theorem view_fetchPhase (s : State) : (fetchPhase s).view = s.view.fetch := by
  have word : (fetchWord s).toNat = s.view.M s.view.pc * 256 + s.view.M ((s.view.pc + 1) % 256) := by
    rw [fetchWord_toNat, ← view_M, ← view_M, BitVec.toNat_add]
    rfl
  exact congrArg (fun ir => { s.view with ir := ir, cs := .decode }) word

/-- The low bits of a number. -/
theorem bits_zero (v hi : Nat) : bits v hi 0 = v % 2 ^ (hi + 1) := by
  rw [bits, pow_zero, Nat.div_one, Nat.sub_zero]

/-- The pseudocode's Decode branch, with the fields under their names. -/
theorem PState.decode_eq (p : PState) (h : p.ir < 65536) :
    p.decode =
      { p with
          d := put (put (put (put p.d 0 (p.ir / 4096)) 1 (tableD1 (p.ir / 4096) p.ir)) 2
            (tableD2 (p.ir / 4096) p.ir)) 3 (tableD3 (p.ir / 4096) p.ir)
          cs := .execute } := by
  have op : bits p.ir 15 12 = p.ir / 4096 := by
    show p.ir / 4096 % 16 = _
    omega
  simp only [PState.decode, op, bits_zero]
  rfl

theorem view_decodePhase (s : State) : (decodePhase s).view = s.view.decode := by
  rw [PState.decode_eq s.view s.ir.isLt]
  obtain ⟨d0, d1, d2, d3⟩ := scratchOf_decodeWord_toNat s.ir
  have fields : (decodePhase s).view.d = put (put (put (put s.view.d 0 (s.ir.toNat / 4096)) 1
      (tableD1 (s.ir.toNat / 4096) s.ir.toNat)) 2 (tableD2 (s.ir.toNat / 4096) s.ir.toNat)) 3
      (tableD3 (s.ir.toNat / 4096) s.ir.toNat) := by
    rw [← d1, ← d2, ← d3, ← d0]
    funext k
    match k with
    | 0 | 1 | 2 | 3 | k + 4 => rfl
  exact congrArg (fun d => { s.view with d := d, cs := .execute }) fields

/-! #### ROT -/

/-- The right shift stays within the ring, so only the left one is reduced. -/
theorem toNat_shiftLeft_or_shiftRight (r : Ring) (j k : Nat) :
    (r <<< j ||| r >>> k).toNat = (r.toNat <<< j ||| r.toNat >>> k) % 512 := by
  have below : r.toNat >>> k < 2 ^ 9 := (Nat.shiftRight_le _ _).trans_lt r.isLt
  rw [BitVec.toNat_or, BitVec.toNat_shiftLeft, BitVec.toNat_ushiftRight, ← Nat.mod_eq_of_lt below, ← Nat.or_mod_two_pow,
    Nat.mod_eq_of_lt below]

theorem rotl9_toNat (r : Ring) (n : Nat) : (rotl9 r n).toNat = rotl9N r.toNat n :=
  toNat_shiftLeft_or_shiftRight r n (9 - n)

theorem rotr9_toNat (r : Ring) (n : Nat) : (rotr9 r n).toNat = rotr9N r.toNat n := by
  rw [rotr9, rotr9N, BitVec.or_comm, Nat.or_comm, toNat_shiftLeft_or_shiftRight]

/-! The direction bit and the count of a control nibble (R69). -/

theorem rotRight_eq : ∀ ctl : Nibble, rotRight ctl = decide (bits ctl.toNat 3 3 = 1) := by decide

theorem rotCount_eq (ctl : Nibble) : rotCount ctl = bits ctl.toNat 2 0 := (bits_zero ctl.toNat 2).symm

theorem ringByte_toNat_bits (r : Ring) : (ringByte r).toNat = bits r.toNat 7 0 :=
  (ringByte_toNat r).trans (bits_zero r.toNat 7).symm

theorem ringCarry_toNat_bits (r : Ring) : (ringCarry r).toNat = bits r.toNat 8 8 := by
  show _ = r.toNat / 256 % 2
  have range : r.toNat / 256 = 0 ∨ r.toNat / 256 = 1 := by omega
  rw [ringCarry_eq]
  obtain e | e := range <;> simp [e]

theorem rotate_toNat (ctl : Nibble) (n : Nat) (r : Ring) :
    (rotate (rotRight ctl) n r).toNat = if bits ctl.toNat 3 3 = 1 then rotr9N r.toNat n else rotl9N r.toNat n := by
  simp only [rotRight_eq, rotate, decide_eq_true_eq, apply_ite BitVec.toNat, rotl9_toNat, rotr9_toNat]

theorem view_rotEffect (s : State) (r a : RegIdx) (ctl : Nibble) (d1 : s.view.d 1 = r.toNat) (d2 : s.view.d 2 = a.toNat) :
    (rotEffect ctl r a s).view = s.view.rot ctl.toNat := by
  by_cases count : rotCount ctl = 0
  · simp only [rotEffect_of_count_zero count, PState.rot, ← rotCount_eq, count, ne_eq, not_true_eq_false, if_false]
  · rw [rotEffect, if_neg count]
    simp only [PState.rot, ← rotCount_eq, count, ne_eq, not_false_eq_true, if_true, view_setZ, view_setC, view_setReg,
      ringByte_toNat_bits, ringCarry_toNat_bits, rotate_toNat, ringOf_toNat, d1, d2, view_x, bool01_toNat_beq_zero]
    rfl

/-- The control value of ROT under `register`, as the pseudocode computes it (R69). -/
theorem rotControl_register_toNat (s : State) (t : Nibble) :
    (rotControl .register s t).toNat = bits (s.reg t).toNat 3 0 := by
  rw [rotControl_register, BitVec.toNat_ofNat, bits_zero, Nat.mod_mod]
  rfl

/-! #### BRA and MDF -/

theorem flagPair_toNat (z c : Bool) : (flagPair z c).toNat = z.toNat * 2 + c.toNat := by
  cases z <;> cases c <;> rfl

theorem branchTaken_iff_toNat (select want : FlagPair) (z c : Bool) :
    branchTaken select want z c = true ↔ select.toNat &&& ((z.toNat * 2 + c.toNat) ^^^ want.toNat) = 0 := by
  rw [branchTaken, decide_eq_true_iff, ← BitVec.toNat_inj, BitVec.toNat_and, BitVec.toNat_xor, flagPair_toNat]
  rfl

theorem mdfZ_toNat : ∀ (select want : FlagPair) (z : Bool),
    (mdfZ select want z).toNat = if bits select.toNat 1 1 = 1 then bits want.toNat 1 1 else z.toNat := by
  decide

theorem mdfC_toNat : ∀ (select want : FlagPair) (c : Bool),
    (mdfC select want c).toNat = if bits select.toNat 0 0 = 1 then bits want.toNat 0 0 else c.toNat := by
  decide

/-! #### The Execute branch -/

/-- The pseudocode's body and its `adv`, in the machine's terms: an instruction that writes neither `pc` nor `cs` does its
effect. -/
def bodyView (cfg : Config) (i : Instr) (s : State) : PState × Bool :=
  match i with
  | .hlt => ((s.setCs .halt).view, cfg.hltPcAdvance == .two)
  | .jsr target => (((s.push (returnAddress s)).setPc target).view, false)
  | .ret => ((s.pop.setPc (s.cell (eaPop s))).view, false)
  | .bra select want target =>
    if branchTaken select want s.z s.c then ((s.setPc target).view, false) else (s.view, true)
  | _ => ((execEffect (selectControl cfg s i) s).view, true)

theorem returnAddress_toNat (s : State) : (returnAddress s).toNat = (s.view.pc + 2) % 256 := BitVec.toNat_add _ _

/-- Row by row, what the pseudocode's body does is what the instruction's effect does. -/
theorem body_view {cfg : Config} {i : Instr} {s : State} (h : s.d = scratchOf i) :
    s.view.body cfg = bodyView cfg i s := by
  have d0 : s.view.d 0 = (scratchOf i).d0.toNat := congrArg (fun d => d.d0.toNat) h
  have d1 : s.view.d 1 = (scratchOf i).d1.toNat := congrArg (fun d => d.d1.toNat) h
  have d2 : s.view.d 2 = (scratchOf i).d2.toNat := congrArg (fun d => d.d2.toNat) h
  have d3 : s.view.d 3 = (scratchOf i).d3.toNat := congrArg (fun d => d.d3.toNat) h
  cases i
  all_goals
    simp only [scratchOf, Instr.opcode, toNat_scratch_nibble, toNat_scratch_pair, BitVec.reduceToNat] at d0 d1 d2 d3
    simp only [PState.body, d0, d1, d2, d3, bodyView, selectControl, execEffect, view_result, view_store, view_push,
      view_pop, view_setC, view_setZ, view_setPc, view_setCs, view_x, view_M, BitVec.toNat_and, BitVec.toNat_xor]
  case adc r a b =>
    rw [adcResult_toNat, bool01_eq (decide _)]
    rfl
  case rot r a ctl =>
    rw [view_rotEffect s r a _ d1 d2]
    cases cfg.rotCtrlSource with
    | field => rfl
    | register => rw [rotControl_register_toNat]
  case pop r => rw [view_M_eaPop]
  case jsr target => rw [returnAddress_toNat]
  case ret => rw [view_M_eaPop]
  case bra select want target =>
    simp only [branchTaken_iff_toNat]
    rfl
  case mdf select want =>
    rw [mdfZ_toNat, mdfC_toNat]
    rfl

section Ends

variable {cfg : Config} {p q : PState}

theorem PState.execute_of_advance (body : p.body cfg = (q, true)) (running : q.cs ≠ .halt) :
    p.execute cfg = { q with pc := (q.pc + 2) % 256, cs := .fetch } := by
  simp [PState.execute, body, running]

theorem PState.execute_of_transfer (body : p.body cfg = (q, false)) (running : q.cs ≠ .halt) :
    p.execute cfg = { q with cs := .fetch } := by
  simp [PState.execute, body, running]

end Ends

theorem execEffect_pc (i : Instr) (s : State) : (execEffect i s).pc = s.pc := by
  cases i with
  | rot r a ctl => exact rotEffect_pc ctl r a s
  | _ => rfl

theorem rotEffect_cs (ctl : Nibble) (r a : RegIdx) (s : State) : (rotEffect ctl r a s).cs = s.cs := by
  unfold rotEffect; split <;> rfl

theorem execEffect_cs (i : Instr) (s : State) : (execEffect i s).cs = s.cs := by
  cases i with
  | rot r a ctl => exact rotEffect_cs ctl r a s
  | _ => rfl

/-- A body that leaves `pc` and `cs` alone, then the epilogue and Fetch. -/
theorem view_retire {cfg : Config} {s u : State} (body : s.view.body cfg = (u.view, true)) (pc : u.pc = s.pc)
    (running : u.cs ≠ .halt) : ((u.setPc (s.pc + 2)).setCs .fetch).view = s.view.execute cfg := by
  rw [PState.execute_of_advance body running, ← pc, view_setCs, view_setPc, BitVec.toNat_add]
  rfl

/-- HLT stays in Halt, and `adv` is whether its advance is 2. -/
theorem view_hlt {cfg : Config} {s : State} (body : s.view.body cfg = bodyView cfg .hlt s) :
    ((s.setPc (s.pc + cfg.hltPcAdvance.amount)).setCs .halt).view = s.view.execute cfg := by
  cases advance : cfg.hltPcAdvance with
  | two =>
    rw [PState.execute, body, bodyView, advance]
    exact congrArg (fun pc => { s.view with pc := pc, cs := .halt }) (BitVec.toNat_add s.pc 2)
  | zero =>
    rw [PState.execute, body, bodyView, advance]
    exact congrArg (fun pc => (({ s with pc := pc } : State).setCs .halt).view) (BitVec.add_zero s.pc)

theorem view_execute (cfg : Config) {i : Instr} {s : State} (h : s.d = scratchOf i) (hcs : s.cs = .execute) :
    ∃ t, execWith cfg i s = .next t ∧ t.view = s.view.execute cfg := by
  refine ⟨_, execWith_eq cfg i s, ?_⟩
  have running : s.cs ≠ .halt := by simp [hcs]
  have body := body_view (cfg := cfg) h
  cases i with
  | hlt => exact view_hlt body
  | jsr target => exact (PState.execute_of_transfer body running).symm
  | ret => exact (PState.execute_of_transfer body running).symm
  | bra select want target =>
    show ((s.setPc (if branchTaken select want s.z s.c then target else s.pc + 2)).setCs .fetch).view = _
    rw [bodyView] at body
    cases taken : branchTaken select want s.z s.c <;> rw [taken] at body
    · exact view_retire body rfl running
    · exact (PState.execute_of_transfer body running).symm
  | _ => exact view_retire body (execEffect_pc _ s) ((execEffect_cs _ s).trans_ne running)

/-- The sub-step and the pseudocode's, cycle state by cycle state. -/
theorem view_subStepWith (cfg : Config) {s : State} (wf : s.cs = .execute → s.d.wellFormed = true) :
    ∃ t, subStepWith cfg s = .next t ∧ t.view = s.view.subStep cfg := by
  have cs : s.view.cs = s.cs := rfl
  rw [PState.subStep, cs]
  cases hcs : s.cs with
  | fetch => exact ⟨_, subStepWith_fetch hcs, view_fetchPhase s⟩
  | decode => exact ⟨_, subStepWith_decode hcs, view_decodePhase s⟩
  | execute =>
    rw [subStepWith_execute hcs]
    exact view_execute cfg (scratchOf_instrOfScratch (wf hcs)).symm hcs
  | halt => exact ⟨_, subStepWith_halt hcs, rfl⟩

/-- Settles O36: the machine's own step is the sub-step at the machine's parameters, the spec's defaults. -/
theorem subStepRefinesThePseudocode : Obligations.SubStepRefinesThePseudocode := fun s wf =>
  ⟨fun cfg => view_subStepWith cfg wf, subStepWith_params s ▸ view_subStepWith params wf⟩

end Machine

end Sys2Proof

/-! ### ADC, AND, XOR and ROT (spec/41_arith_logic.md) -/

namespace Sys2Proof.Machine

/-! #### What the accessors show after a register write and after the epilogue -/

/-- A result instruction writes one register and Z. -/
theorem State.result_shows (s : State) (r : RegIdx) (v : Byte) :
    (s.result r v).Shows (regs := Function.update s.reg r v) (mem := s.cell) (z := decide (v = 0)) (c := s.c) (pc := s.pc)
      (cs := s.cs) (ir := s.ir) (d := s.d) :=
  ⟨fun q => by rw [State.reg_result, Function.update_apply], fun _ => rfl, rfl, rfl, rfl, rfl, rfl, rfl⟩

/-- The epilogue moves `pc` and the cycle state (R74, R75). -/
theorem State.Shows.retire {t : State} {regs : RegIdx → Byte} {mem : Byte → Byte} {z c : Bool} {pc : Byte}
    {cs : CycleState} {ir : Word} {d : Scratch} (h : t.Shows regs mem z c pc cs ir d) :
    ∃ u, t.retire = .next u ∧ u.Shows regs mem z c (pc + 2) .fetch ir d :=
  ⟨_, t.retire_eq, { h with pc := congrArg (· + 2) h.pc, cs := rfl }⟩

/-! #### The nine-bit rotations (R94) -/

section Ring

variable (x : Ring) {n i : Nat}

/-- Bit `i` moves up by `n` and wraps at 9. -/
theorem getLsbD_rotl9 (hn : n ≤ 9) (hi : i < 9) : (rotl9 x n).getLsbD ((i + n) % 9) = x.getLsbD i := by
  rw [rotl9, BitVec.getLsbD_or, BitVec.getLsbD_shiftLeft, BitVec.getLsbD_ushiftRight]
  by_cases stays : i + n < 9
  · have above : x.getLsbD (9 - n + (i + n)) = false := BitVec.getLsbD_of_ge x _ (by omega)
    simp [Nat.mod_eq_of_lt stays, stays, above]
  · have wraps : (i + n) % 9 = i + n - 9 := by omega
    have below : i + n - 9 < n := by omega
    have back : 9 - n + (i + n - 9) = i := by omega
    simp [wraps, below, back]

/-- Those bits are all there are: nothing else is a left rotation. -/
theorem eq_rotl9 {y : Ring} (hn : n ≤ 9) (h : ∀ i < 9, y.getLsbD ((i + n) % 9) = x.getLsbD i) : y = rotl9 x n := by
  apply BitVec.eq_of_getLsbD_eq
  intro j hj
  have source : ((j + (9 - n)) % 9 + n) % 9 = j := by omega
  have hi : (j + (9 - n)) % 9 < 9 := Nat.mod_lt _ (by decide)
  rw [← source, h _ hi, getLsbD_rotl9 x hn hi]

theorem rotl9_zero : rotl9 x 0 = x := (eq_rotl9 x (Nat.zero_le 9) fun _ hi => by rw [Nat.add_zero, Nat.mod_eq_of_lt hi]).symm

theorem rotl9_nine : rotl9 x 9 = x := (eq_rotl9 x le_rfl fun _ hi => by rw [Nat.add_mod_right, Nat.mod_eq_of_lt hi]).symm

/-- Two left rotations add up. -/
theorem rotl9_rotl9 {m : Nat} (h : m + n ≤ 9) : rotl9 (rotl9 x m) n = rotl9 x (m + n) := by
  refine eq_rotl9 x h fun i hi => ?_
  have steps : (i + (m + n)) % 9 = ((i + m) % 9 + n) % 9 := by omega
  rw [steps, getLsbD_rotl9 _ (by omega) (Nat.mod_lt _ (by decide)), getLsbD_rotl9 x (by omega) hi]

theorem rotr9_eq_rotl9 (hn : n ≤ 9) : rotr9 x n = rotl9 x (9 - n) := by
  rw [rotr9, rotl9, BitVec.or_comm, Nat.sub_sub_self hn]

theorem rotr9_rotl9 (hn : n ≤ 9) : rotr9 (rotl9 x n) n = x := by
  rw [rotr9_eq_rotl9 _ hn, rotl9_rotl9 x (by omega), Nat.add_sub_cancel' hn, rotl9_nine]

end Ring

/-- Settles O9: `getLsbD_rotl9`, for the right rotation at its complement. -/
theorem rotationsMoveEachRingBit : Obligations.RotationsMoveEachRingBit := by
  intro x n i _ hn hi
  have bit : i < 9 := by omega
  have complement : i + 9 - n = i + (9 - n) := by omega
  refine ⟨getLsbD_rotl9 x (by omega) bit, ?_, rotr9_eq_rotl9 x (by omega)⟩
  rw [rotr9_eq_rotl9 x (by omega), complement, getLsbD_rotl9 x (by omega) bit]

/-! #### The ring of the carry and one register (R93, R94) -/

/-- The ring that ROT reads, `{C, x[r]}`. -/
def State.ring (s : State) (r : RegIdx) : Ring := ringOf s.c (s.reg r)

/-- What ROT writes for a rotated ring: `x[r]`, C, and Z from the `x[r]` before. -/
def State.writeRing (s : State) (r : RegIdx) (x : Ring) : State :=
  ((s.setReg r (ringByte x)).setC (ringCarry x)).setZ (decide (s.reg r = 0))

theorem rotEffect_of_count_ne_zero {ctl : Nibble} (h : rotCount ctl ≠ 0) (r a : RegIdx) (s : State) :
    rotEffect ctl r a s = s.writeRing r (rotate (rotRight ctl) (rotCount ctl) (s.ring a)) := if_neg h

theorem exec_rot_eq (r a : RegIdx) (ctl : Nibble) (s : State) : exec (.rot r a ctl) s = (rotEffect ctl r a s).retire := rfl

theorem ringOf_ringCarry_ringByte (x : Ring) : ringOf (ringCarry x) (ringByte x) = x := by
  apply BitVec.eq_of_toNat_eq
  have carry : (ringCarry x).toNat = x.toNat / 256 := by
    rw [ringCarry_toNat_bits]
    show x.toNat / 256 % 2 = _
    omega
  rw [ringOf_toNat, carry, ringByte_toNat]
  omega

/-- A written ring is read back from its register and the carry. -/
theorem ring_writeRing (s : State) (r : RegIdx) (x : Ring) : (s.writeRing r x).ring r = x := by
  simp [State.ring, State.writeRing, ringOf_ringCarry_ringByte]

theorem ring_eq_iff {s t : State} {r : RegIdx} : t.ring r = s.ring r ↔ t.reg r = s.reg r ∧ t.c = s.c := by
  refine ⟨fun h => ⟨?_, ?_⟩, fun ⟨reg, c⟩ => congrArg₂ ringOf c reg⟩
  · simpa [State.ring] using congrArg ringByte h
  · simpa [State.ring] using congrArg ringCarry h

/-- `n` from 1 to 7 as a control nibble is a left rotation by `n` … -/
theorem rotCount_rotRight_left : ∀ n < 8, rotCount (BitVec.ofNat 4 n) = n ∧ rotRight (BitVec.ofNat 4 n) = false := by decide

/-- … and `8 + n` a right one (R69). -/
theorem rotCount_rotRight_right :
    ∀ n < 8, rotCount (BitVec.ofNat 4 (8 + n)) = n ∧ rotRight (BitVec.ofNat 4 (8 + n)) = true := by decide

section Rot

variable {n : Nat} (hn : 1 ≤ n) (hn' : n ≤ 7) (r a : RegIdx) (s : State)

include hn hn'

theorem exec_rot_left : exec (.rot r a (BitVec.ofNat 4 n)) s = (s.writeRing r (rotl9 (s.ring a) n)).retire := by
  obtain ⟨count, direction⟩ := rotCount_rotRight_left n (by omega)
  rw [exec_rot_eq, rotEffect_of_count_ne_zero (by omega), count, direction]
  rfl

theorem exec_rot_right : exec (.rot r a (BitVec.ofNat 4 (8 + n))) s = (s.writeRing r (rotr9 (s.ring a) n)).retire := by
  obtain ⟨count, direction⟩ := rotCount_rotRight_right n (by omega)
  rw [exec_rot_eq, rotEffect_of_count_ne_zero (by omega), count, direction]
  rfl

end Rot

/-- The answer of a ROT has the rotated ring in its destination. -/
theorem retire_writeRing (s : State) (r : RegIdx) (x : Ring) : ∃ t, (s.writeRing r x).retire = .next t ∧ t.ring r = x :=
  ⟨_, State.retire_eq _, ring_writeRing s r x⟩

/-- `k` single left rotations in place rotate the ring left by `k`. -/
theorem ring_after_single_rotations (r : RegIdx) (s : State) {k : Nat} (hk : k ≤ 9) :
    ∃ u, (fun o => andThen o (exec (.rot r r 1)))^[k] (.next s) = .next u ∧ u.ring r = rotl9 (s.ring r) k := by
  induction k with
  | zero => exact ⟨s, rfl, (rotl9_zero _).symm⟩
  | succ k ih =>
    obtain ⟨t, before, ring⟩ := ih (by omega)
    obtain ⟨u, last, rotated⟩ := retire_writeRing t r (rotl9 (t.ring r) 1)
    refine ⟨u, ?_, by rw [rotated, ring, rotl9_rotl9 _ hk]⟩
    rw [Function.iterate_succ_apply', before, andThen_next, ← last]
    exact exec_rot_left le_rfl (by decide) r r t

/-- Settles O10: each of the three is an equation of rotations of one ring: `rotr9_rotl9`, `rotr9_eq_rotl9`, and nine single
rotations adding up to `rotl9_nine`. -/
theorem rotationsUndoEachOther : Obligations.RotationsUndoEachOther := by
  refine ⟨fun r s n hn hn' => ?_, fun r a s n hn hn' => ?_, fun r s => ?_⟩
  · obtain ⟨t, left, ringT⟩ := retire_writeRing s r (rotl9 (s.ring r) n)
    obtain ⟨u, right, ringU⟩ := retire_writeRing t r (rotr9 (t.ring r) n)
    rw [ringT, rotr9_rotl9 _ (by omega)] at ringU
    exact ⟨t, u, (exec_rot_left hn hn' r r s).trans left, (exec_rot_right hn hn' r r t).trans right, ring_eq_iff.mp ringU⟩
  · rw [exec_rot_left (by omega) hn', exec_rot_right (by omega) (by omega), rotr9_eq_rotl9 _ (by omega),
      Nat.sub_sub_self (by omega)]
  · obtain ⟨u, nine, ring⟩ := ring_after_single_rotations r s le_rfl
    rw [rotl9_nine] at ring
    exact ⟨u, nine, ring_eq_iff.mp ring⟩

/-! #### ADC, AND and XOR (R90 to R92) -/

/-- Settles O5: the sum of R90 is `adcSum`, and ADC writes its low byte, Z and C. -/
theorem adcAddsWithCarry : Obligations.AdcAddsWithCarry := by
  intro r a b s
  refine ⟨decodeWord_encode (.adc r a b), ?_⟩
  intro sum
  have low : BitVec.ofNat 8 (sum % 256) = adcResult (s.reg a) (s.reg b) s.c :=
    BitVec.eq_of_toNat_eq (by rw [adcResult_toNat, BitVec.toNat_ofNat]; exact Nat.mod_mod _ _)
  have zero : sum % 256 = 0 ↔ adcResult (s.reg a) (s.reg b) s.c = 0 := by
    rw [← BitVec.toNat_inj, adcResult_toNat]
    rfl
  simp only [low, zero]
  exact State.Shows.retire { s.result_shows r _ with c := rfl }

/-- Settles O6: AND is a result instruction. -/
theorem andCombinesRegisters : Obligations.AndCombinesRegisters := fun r a b s =>
  ⟨decodeWord_encode (.and r a b), (s.result_shows r (s.reg a &&& s.reg b)).retire⟩

/-- Settles O7: XOR is a result instruction, whose result is 0 exactly when its sources are equal. -/
theorem xorCombinesRegisters : Obligations.XorCombinesRegisters := by
  intro r a b s
  refine ⟨decodeWord_encode (.xor r a b), ?_⟩
  have compare : s.reg a = s.reg b ↔ s.reg a ^^^ s.reg b = 0 := BitVec.xor_eq_zero_iff.symm
  simp only [compare]
  exact (s.result_shows r (s.reg a ^^^ s.reg b)).retire

/-! #### ROT over numbers (R93) -/

/-- ROT writes its destination, C and Z. -/
theorem State.writeRing_shows (s : State) (r : RegIdx) (x : Ring) :
    (s.writeRing r x).Shows (regs := Function.update s.reg r (ringByte x)) (mem := s.cell) (z := decide (s.reg r = 0))
      (c := ringCarry x) (pc := s.pc) (cs := s.cs) (ir := s.ir) (d := s.d) :=
  ⟨fun q => by rw [Function.update_apply]; exact s.reg_setReg r q (ringByte x), fun _ => rfl, rfl, rfl, rfl, rfl, rfl, rfl⟩

theorem ringByte_eq (x : Ring) : ringByte x = BitVec.ofNat 8 (x.toNat % 256) := by
  rw [← ringByte_toNat, BitVec.ofNat_toNat, BitVec.setWidth_eq]

/-- R69, R94: below 8 the control nibble means left. -/
theorem rotate_toNat_of_control (ctl : Nibble) (n : Nat) (x : Ring) :
    (rotate (rotRight ctl) n x).toNat = if ctl.toNat < 8 then rotl9N x.toNat n else rotr9N x.toNat n := by
  have direction : bits ctl.toNat 3 3 = 1 ↔ ¬ ctl.toNat < 8 := by
    show ctl.toNat / 8 % 2 = 1 ↔ _
    omega
  simp only [rotate_toNat, direction, ite_not]

/-- Settles O8: with count 0 ROT is the epilogue alone, and otherwise `turned` is the number of the rotated ring. -/
theorem rotRotatesThroughCarry : Obligations.RotRotatesThroughCarry := by
  intro r a ctl s
  refine ⟨decodeWord_encode (.rot r a ctl), ?_⟩
  intro n ring turned
  rw [exec_rot_eq]
  by_cases count : n = 0
  · simp only [count, if_true, rotEffect_of_count_zero count]
    exact State.Shows.retire ⟨fun _ => rfl, fun _ => rfl, rfl, rfl, rfl, rfl, rfl, rfl⟩
  · have number : turned = (rotate (rotRight ctl) n (s.ring a)).toNat := by
      rw [rotate_toNat_of_control, State.ring, ringOf_toNat]
      rfl
    simp only [count, if_false, number, ← ringByte_eq, ← ringCarry_eq, rotEffect_of_count_ne_zero count]
    exact (s.writeRing_shows r _).retire

end Sys2Proof.Machine

/-! ### LDI, LDM, LDR, STO and STR (spec/42_load_store.md) -/

namespace Sys2Proof

open Machine (namedBits)

/-! #### Words with ones among the ignored bits (R61, R64) -/

/-- R64: a word is read as the instruction whose canonical word its named bits make. -/
theorem decodeWord_eq_iff_and_namedBits {w : Word} {i : Instr} :
    decodeWord w = i ↔ w &&& namedBits i.opcode = encode i := by
  constructor
  · rintro rfl
    rw [opcode_decodeWord, encode_decodeWord]
  · intro named
    have opcodes : fieldOpcode w = i.opcode := by rw [← fieldOpcode_and_namedBits w i.opcode, named, fieldOpcode_encode]
    calc decodeWord w
      _ = decodeWord (encode (decodeWord w)) := (decodeWord_encode _).symm
      _ = decodeWord (encode i) := by rw [encode_decodeWord, opcodes, named]
      _ = i := decodeWord_encode i

/-- R61 for the formats RS and J (R55, R57): bits 11 to 8 of the word may hold anything. -/
theorem decodeWord_of_ignored_11to8 {i : Instr} (format : namedBits i.opcode = 0xF0FF) (x : Nibble) :
    decodeWord (BitVec.ofNat 16 (i.opcode.toNat * 0x1000 + x.toNat * 0x100 + operandNumber i)) = i := by
  have canonical : encode i &&& 0xF0FF = encode i := by
    rw [← format, decodeWord_eq_iff_and_namedBits.mp (decodeWord_encode i)]
  have low : operandNumber i < 0x100 := by
    have below := operandNumber_lt i
    rw [← BitVec.toNat_inj, toNat_and_0xF0FF, encode_toNat] at canonical
    omega
  have fits : i.opcode.toNat * 0x1000 + x.toNat * 0x100 + operandNumber i < 2 ^ 16 := by omega
  have top : (i.opcode.toNat * 0x1000 + x.toNat * 0x100 + operandNumber i) / 0x1000 = i.opcode.toNat := by omega
  have byte : (i.opcode.toNat * 0x1000 + x.toNat * 0x100 + operandNumber i) % 0x100 = operandNumber i := by omega
  rw [decodeWord_eq_iff_and_namedBits, format, ← BitVec.toNat_inj, toNat_and_0xF0FF, encode_toNat, BitVec.toNat_ofNat,
    Nat.mod_eq_of_lt fits, top, byte]

namespace Machine

/-! #### Loads (R100 to R102) -/

/-- Settles O11: LDI is a result instruction, whose result is its constant. -/
theorem ldiLoadsTheConstant : Obligations.LdiLoadsTheConstant := fun r imm s =>
  ⟨decodeWord_encode (.ldi r imm), (s.result_shows r imm).retire⟩

/-- Settles O12: LDM is a result instruction, whose result is the cell its address names. -/
theorem ldmLoadsTheCell : Obligations.LdmLoadsTheCell := fun r addr s =>
  ⟨decodeWord_encode (.ldm r addr), (s.result_shows r (s.cell addr)).retire⟩

/-- Settles O13: LDR is a result instruction, whose result is read, address and all, from the state before. -/
theorem ldrLoadsThroughRegister : Obligations.LdrLoadsThroughRegister := by
  intro r a x s
  refine ⟨?_, (s.result_shows r (s.cell (s.reg a))).retire⟩
  simpa [Instr.opcode, operandNumber, Nat.add_assoc] using decodeWord_of_ignored_11to8 (i := .ldr r a) rfl x

/-! #### Stores (R103, R104) -/

/-- A store writes one cell and Z. -/
theorem State.store_shows (s : State) (a v : Byte) :
    (s.store a v).Shows (regs := s.reg) (mem := Function.update s.cell a v) (z := decide (v = 0)) (c := s.c) (pc := s.pc)
      (cs := s.cs) (ir := s.ir) (d := s.d) :=
  ⟨fun _ => rfl, fun b => by rw [State.cell_store, Function.update_apply], rfl, rfl, rfl, rfl, rfl, rfl⟩

/-- Settles O14: STO is a store at the address it names. -/
theorem stoStoresTheRegister : Obligations.StoStoresTheRegister := fun r addr s =>
  ⟨decodeWord_encode (.sto r addr), (s.store_shows addr (s.reg r)).retire⟩

/-- Settles O15: STR is a store at the address its second register holds. -/
theorem strStoresThroughRegister : Obligations.StrStoresThroughRegister := by
  intro r a x s
  refine ⟨?_, (s.store_shows (s.reg a) (s.reg r)).retire⟩
  simpa [Instr.opcode, operandNumber, Nat.add_assoc] using decodeWord_of_ignored_11to8 (i := .str r a) rfl x

end Machine

end Sys2Proof

/-! ### PSH and POP, and the stack that JSR and RET share with them (spec/43_stack.md) -/

namespace Sys2Proof

open Machine (namedBits)

/-- R61 for the format R (R56): bits 7 to 0 of the word may hold anything. -/
theorem decodeWord_of_ignored_7to0 {i : Instr} (format : namedBits i.opcode = 0xFF00) (x : Byte) :
    decodeWord (BitVec.ofNat 16 (i.opcode.toNat * 0x1000 + operandNumber i + x.toNat)) = i := by
  have canonical : (encode i).toNat / 0x100 * 0x100 = (encode i).toNat := by
    rw [← toNat_and_0xFF00, ← format, decodeWord_eq_iff_and_namedBits.mp (decodeWord_encode i)]
  have fits : (encode i).toNat + x.toNat < 2 ^ 16 := by omega
  have high : ((encode i).toNat + x.toNat) / 0x100 * 0x100 = (encode i).toNat := by
    rw [Nat.add_div_of_dvd_right (Dvd.intro_left _ canonical), Nat.div_eq_of_lt x.isLt, Nat.add_zero, canonical]
  rw [decodeWord_eq_iff_and_namedBits, format, ← BitVec.toNat_inj, toNat_and_0xFF00, ← encode_toNat, BitVec.toNat_ofNat,
    Nat.mod_eq_of_lt fits, high]

namespace Machine

/-! #### What the accessors show after a push, after a pop, and after the end of a control transfer -/

/-- A push writes the cell at `sp` and decrements `sp`. -/
theorem State.push_shows (s : State) (v : Byte) :
    (s.push v).Shows (regs := Function.update s.reg 15 (s.reg 15 - 1)) (mem := Function.update s.cell (s.reg 15) v)
      (z := s.z) (c := s.c) (pc := s.pc) (cs := s.cs) (ir := s.ir) (d := s.d) :=
  ⟨fun q => by rw [State.reg_push, Function.update_apply]; rfl,
    fun a => by rw [State.cell_push, Function.update_apply]; rfl, rfl, rfl, rfl, rfl, rfl, rfl⟩

/-- A pop's move increments `sp`. -/
theorem State.pop_shows (s : State) :
    s.pop.Shows (regs := Function.update s.reg 15 (s.reg 15 + 1)) (mem := s.cell) (z := s.z) (c := s.c) (pc := s.pc)
      (cs := s.cs) (ir := s.ir) (d := s.d) :=
  ⟨fun q => by rw [State.reg_pop, Function.update_apply]; rfl, fun _ => rfl, rfl, rfl, rfl, rfl, rfl, rfl⟩

section Shows

variable {t : State} {regs : RegIdx → Byte} {mem : Byte → Byte} {z c : Bool} {pc : Byte} {cs : CycleState} {ir : Word}
  {d : Scratch}

/-- A result writes one register and Z over whatever was shown before. -/
theorem State.Shows.result (h : t.Shows regs mem z c pc cs ir d) (r : RegIdx) (v : Byte) :
    (t.result r v).Shows (Function.update regs r v) mem (decide (v = 0)) c pc cs ir d :=
  { h with
    regs := fun q => by rw [State.reg_result, Function.update_apply, h.regs]
    z := rfl }

/-- A control transfer moves `pc` to its target and the cycle state to Fetch (R123). -/
theorem State.Shows.transfer (h : t.Shows regs mem z c pc cs ir d) (target : Byte) :
    ∃ u, t.transfer target = .next u ∧ u.Shows regs mem z c target .fetch ir d :=
  ⟨_, t.transfer_eq target, { h with pc := rfl, cs := rfl }⟩

end Shows

/-! #### The four stack instructions (R110, R111, R120, R121) -/

theorem exec_pop_eq (r : RegIdx) (s : State) : exec (.pop r) s = (s.pop.result r (s.cell (s.reg 15 + 1))).retire :=
  congrArg (fun a => (s.pop.result r (s.cell a)).retire) (eaPop_eq s)

theorem exec_ret_eq (s : State) : exec .ret s = s.pop.transfer (s.cell (s.reg 15 + 1)) :=
  congrArg (fun a => s.pop.transfer (s.cell a)) (eaPop_eq s)

/-- PSH is a push of its register and the epilogue. -/
theorem exec_psh_shows (r : RegIdx) (s : State) :
    ∃ t, exec (.psh r) s = .next t ∧
      t.Shows (regs := Function.update s.reg 15 (s.reg 15 - 1)) (mem := Function.update s.cell (s.reg 15) (s.reg r))
        (z := s.z) (c := s.c) (pc := s.pc + 2) (cs := .fetch) (ir := s.ir) (d := s.d) :=
  (s.push_shows (s.reg r)).retire

/-- POP is a pop's move, then a result whose value is the cell that `sp` now addresses, then the epilogue. -/
theorem exec_pop_shows (r : RegIdx) (s : State) :
    ∃ t, exec (.pop r) s = .next t ∧
      t.Shows (regs := Function.update (Function.update s.reg 15 (s.reg 15 + 1)) r (s.cell (s.reg 15 + 1))) (mem := s.cell)
        (z := decide (s.cell (s.reg 15 + 1) = 0)) (c := s.c) (pc := s.pc + 2) (cs := .fetch) (ir := s.ir) (d := s.d) := by
  rw [exec_pop_eq]
  exact (s.pop_shows.result r (s.cell (s.reg 15 + 1))).retire

/-- JSR is a push of the return address and a transfer. -/
theorem exec_jsr_shows (target : Byte) (s : State) :
    ∃ t, exec (.jsr target) s = .next t ∧
      t.Shows (regs := Function.update s.reg 15 (s.reg 15 - 1)) (mem := Function.update s.cell (s.reg 15) (s.pc + 2))
        (z := s.z) (c := s.c) (pc := target) (cs := .fetch) (ir := s.ir) (d := s.d) :=
  (s.push_shows (returnAddress s)).transfer target

/-- RET is a pop's move and a transfer to the byte that `sp` now addresses. -/
theorem exec_ret_shows (s : State) :
    ∃ t, exec .ret s = .next t ∧
      t.Shows (regs := Function.update s.reg 15 (s.reg 15 + 1)) (mem := s.cell)
        (z := s.z) (c := s.c) (pc := s.cell (s.reg 15 + 1)) (cs := .fetch) (ir := s.ir) (d := s.d) := by
  rw [exec_ret_eq]
  exact s.pop_shows.transfer (s.cell (s.reg 15 + 1))

/-- Settles O16: PSH pushes its register, and bits 7 to 0 of its word are ignored. -/
theorem pshPushesTheRegister : Obligations.PshPushesTheRegister := by
  intro r x s
  refine ⟨?_, exec_psh_shows r s⟩
  simpa [Instr.opcode, operandNumber] using decodeWord_of_ignored_7to0 (i := .psh r) rfl x

/-- Settles O17: POP pops into its register, and bits 7 to 0 of its word are ignored. -/
theorem popPopsIntoTheRegister : Obligations.PopPopsIntoTheRegister := by
  intro r x s
  refine ⟨?_, exec_pop_shows r s⟩
  simpa [Instr.opcode, operandNumber] using decodeWord_of_ignored_7to0 (i := .pop r) rfl x

/-! #### A push undone by a pop (R112) -/

/-- R112: POP into the register that PSH has just pushed restores every register, `sp` included, and keeps memory and C. -/
theorem exec_pop_after_psh {r : RegIdx} {s t : State} (pushed : exec (.psh r) s = .next t) :
    ∃ u, exec (.pop r) t = .next u ∧
      u.Shows (regs := s.reg) (mem := t.cell) (z := decide (s.reg r = 0)) (c := s.c) (pc := s.pc + 2 + 2) (cs := .fetch)
        (ir := s.ir) (d := s.d) := by
  obtain ⟨t', psh, shows⟩ := exec_psh_shows r s
  obtain rfl : t' = t := by simpa [psh] using pushed
  have sp : t'.reg 15 + 1 = s.reg 15 := by rw [shows.regs, Function.update_self, sub_add_cancel]
  have byte : t'.cell (t'.reg 15 + 1) = s.reg r := by rw [sp, shows.mem, Function.update_self]
  have regs : Function.update (Function.update t'.reg 15 (t'.reg 15 + 1)) r (s.reg r) = s.reg := by
    rw [sp, funext shows.regs, Function.update_idem, Function.update_eq_self, Function.update_eq_self]
  have pop := exec_pop_shows r t'
  rwa [byte, regs, shows.c, shows.pc, shows.ir, shows.d] at pop

/-- Settles O18: PSH and JSR show a push, POP and RET a pop, and a pop after a push of the same register undoes its move. -/
theorem pushThenPopRestoresRegisters : Obligations.PushThenPopRestoresRegisters := by
  refine ⟨fun r s => ?_, fun r => ?_, fun r s => ?_, fun s => ?_, fun target s => ?_⟩
  · obtain ⟨t, psh, pushed⟩ := exec_psh_shows r s
    obtain ⟨u, pop, popped⟩ := exec_pop_after_psh psh
    have cells (a : Byte) : t.cell a = if a = s.reg 15 then s.reg r else s.cell a :=
      (pushed.mem a).trans (Function.update_apply ..)
    exact ⟨t, u, psh, pop, (pushed.regs 15).trans (Function.update_self ..), (cells _).trans (if_pos rfl), pushed.z,
      popped.regs, popped.z, popped.c, fun a => (popped.mem a).trans (cells a), popped.mem⟩
  · obtain ⟨t, psh, pushed⟩ := exec_psh_shows r State.reset
    exact ⟨t, psh, pushed.mem 255, pushed.regs 15⟩
  · obtain ⟨t, pop, popped⟩ := exec_pop_shows r s
    refine ⟨t, pop, (popped.regs r).trans (Function.update_self ..), fun ne => ?_, popped.mem⟩
    rw [popped.regs, Function.update_of_ne ne.symm, Function.update_self]
  · obtain ⟨t, ret, popped⟩ := exec_ret_shows s
    exact ⟨t, ret, popped.pc, (popped.regs 15).trans (Function.update_self ..), popped.mem⟩
  · obtain ⟨t, jsr, pushed⟩ := exec_jsr_shows target s
    exact ⟨t, jsr, (pushed.mem _).trans (Function.update_self ..), (pushed.regs 15).trans (Function.update_self ..)⟩

end Machine

end Sys2Proof

/-! ### JSR, RET and BRA (spec/44_control_transfer.md) -/

namespace Sys2Proof

open Machine (namedBits)

/-- R61 for the format N (R52): bits 11 to 0 of the word may hold anything. -/
theorem decodeWord_of_ignored_11to0 {i : Instr} (format : namedBits i.opcode = 0xF000) {x : Nat} (hx : x < 0x1000) :
    decodeWord (BitVec.ofNat 16 (i.opcode.toNat * 0x1000 + x)) = i := by
  have canonical : (encode i).toNat / 0x1000 * 0x1000 = (encode i).toNat := by
    rw [← toNat_and_0xF000, ← format, decodeWord_eq_iff_and_namedBits.mp (decodeWord_encode i)]
  have none : operandNumber i = 0 := by
    have low := operandNumber_lt i
    rw [encode_toNat] at canonical
    omega
  have fits : i.opcode.toNat * 0x1000 + x < 2 ^ 16 := by omega
  have top : (i.opcode.toNat * 0x1000 + x) / 0x1000 = i.opcode.toNat := by omega
  rw [decodeWord_eq_iff_and_namedBits, format, ← BitVec.toNat_inj, toNat_and_0xF000, encode_toNat, BitVec.toNat_ofNat,
    Nat.mod_eq_of_lt fits, top, none, Nat.add_zero]

namespace Machine

/-! #### JSR and RET (R120, R121, R123) -/

/-- R112, R120, R121: RET on the stack its JSR left goes to the return address and restores every register. -/
theorem exec_ret_after_jsr {target : Byte} {s t : State} (called : exec (.jsr target) s = .next t) :
    ∃ u, exec .ret t = .next u ∧
      u.Shows (regs := s.reg) (mem := t.cell) (z := s.z) (c := s.c) (pc := s.pc + 2) (cs := .fetch) (ir := s.ir)
        (d := s.d) := by
  obtain ⟨t', jsr, shows⟩ := exec_jsr_shows target s
  obtain rfl : t' = t := by simpa [jsr] using called
  have sp : t'.reg 15 + 1 = s.reg 15 := by rw [shows.regs, Function.update_self, sub_add_cancel]
  have byte : t'.cell (t'.reg 15 + 1) = s.pc + 2 := by rw [sp, shows.mem, Function.update_self]
  have regs : Function.update t'.reg 15 (t'.reg 15 + 1) = s.reg := by
    rw [sp, funext shows.regs, Function.update_idem, Function.update_eq_self]
  have ret := exec_ret_shows t'
  rwa [byte, regs, shows.z, shows.c, shows.ir, shows.d] at ret

/-- Settles O23: the cell JSR changed is the one RET pops, and RET keeps memory. -/
theorem returnUndoesCall : Obligations.ReturnUndoesCall := by
  intro target s
  obtain ⟨t, jsr, pushed⟩ := exec_jsr_shows target s
  obtain ⟨u, ret, popped⟩ := exec_ret_after_jsr jsr
  exact ⟨t, u, jsr, pushed.pc, ret, { popped with mem := fun a => (popped.mem a).trans (pushed.mem a) }⟩

/-- Settles O20: JSR pushes the return address, and bits 11 to 8 of its word are ignored. -/
theorem jsrPushesTheReturnAddress : Obligations.JsrPushesTheReturnAddress := by
  intro target x s
  refine ⟨?_, exec_jsr_shows target s⟩
  simpa [Instr.opcode, operandNumber] using decodeWord_of_ignored_11to8 (i := .jsr target) rfl x

/-- Settles O21: RET pops `pc`, and bits 11 to 0 of its word are ignored. -/
theorem retPopsTheProgramCounter : Obligations.RetPopsTheProgramCounter := by
  intro x s hx
  refine ⟨?_, exec_ret_shows s⟩
  simpa [Instr.opcode] using decodeWord_of_ignored_11to0 (i := .ret) rfl hx

/-! #### BRA (R122) -/

theorem exec_bra_of_taken {select want : FlagPair} {s : State} (taken : branchTaken select want s.z s.c = true)
    (target : Byte) : exec (.bra select want target) s = s.transfer target := if_pos taken

theorem exec_bra_of_not_taken {select want : FlagPair} {s : State} (notTaken : ¬ branchTaken select want s.z s.c = true)
    (target : Byte) : exec (.bra select want target) s = s.retire := if_neg notTaken

/-- A state shows what it holds. -/
theorem State.shows_self (s : State) :
    s.Shows (regs := s.reg) (mem := s.cell) (z := s.z) (c := s.c) (pc := s.pc) (cs := s.cs) (ir := s.ir) (d := s.d) :=
  s.shows_with_mem s.mem

/-- BRA is a transfer when it is taken, and the epilogue alone when it is not. -/
theorem exec_bra_shows (select want : FlagPair) (target : Byte) (s : State) :
    ∃ t, exec (.bra select want target) s = .next t ∧
      t.Shows (regs := s.reg) (mem := s.cell) (z := s.z) (c := s.c)
        (pc := if branchTaken select want s.z s.c then target else s.pc + 2) (cs := .fetch) (ir := s.ir) (d := s.d) := by
  by_cases taken : branchTaken select want s.z s.c = true
  · rw [exec_bra_of_taken taken, if_pos taken]
    exact s.shows_self.transfer target
  · rw [exec_bra_of_not_taken taken, if_neg taken]
    exact s.shows_self.retire

/-- R122: BRA's test, flag by flag. -/
theorem branchTaken_eq (select want : FlagPair) (z c : Bool) : branchTaken select want z c =
    ((!select.getLsbD 1 || z == want.getLsbD 1) && (!select.getLsbD 0 || c == want.getLsbD 0)) := by
  rw [Bool.eq_iff_iff, branchTaken_iff]
  simp [imp_iff_not_or]

/-- Settles O22: `branchTaken` decides between BRA's two ends; it is R122's formula by definition, and the test of each
flag by `branchTaken_eq`. -/
theorem braBranchesOnSelectedFlags : Obligations.BraBranchesOnSelectedFlags := by
  intro select want target s
  refine ⟨decodeWord_encode (.bra select want target), ?_⟩
  intro cur taken
  have test : taken = branchTaken select want s.z s.c := (branchTaken_eq select want s.z s.c).symm
  rw [test]
  exact ⟨decide_eq_true_iff, exec_bra_shows select want target s⟩

end Machine

end Sys2Proof

/-! ### HLT and MDF (spec/45_system.md) -/

namespace Sys2Proof.Machine

/-- HLT, under any parameters, advances `pc` by `HLT_PC_ADVANCE` and enters Halt (R130). -/
theorem execWith_hlt_shows (cfg : Config) (s : State) :
    ∃ t, execWith cfg .hlt s = .next t ∧
      t.Shows (regs := s.reg) (mem := s.cell) (z := s.z) (c := s.c) (pc := s.pc + cfg.hltPcAdvance.amount) (cs := .halt)
        (ir := s.ir) (d := s.d) :=
  ⟨_, execWith_eq cfg .hlt s, execEffect_hlt_shows s _⟩

/-- The sum of `pc` and `HLT_PC_ADVANCE`, value by value. -/
theorem pc_add_hltPcAdvance (advance : HltPcAdvance) (pc : Byte) :
    pc + advance.amount = match advance with | .two => pc + 2 | .zero => pc := by
  cases advance with
  | two => rfl
  | zero => exact BitVec.add_zero pc

/-- Settles O24: bits 11 to 0 of HLT's word are ignored, and the machine's HLT is the one under its own parameters. -/
theorem hltEntersHalt : Obligations.HltEntersHalt := by
  refine ⟨fun x hx => ?_, execWith_hlt_shows params, fun cfg s => ?_⟩
  · simpa [Instr.opcode] using decodeWord_of_ignored_11to0 (i := .hlt) rfl hx
  · obtain ⟨t, hlt, shows⟩ := execWith_hlt_shows cfg s
    exact ⟨t, hlt, { shows with pc := shows.pc.trans (pc_add_hltPcAdvance cfg.hltPcAdvance s.pc) }⟩

/-- MDF writes the two flags, each by its own rule (R131). -/
theorem execEffect_mdf_shows (select want : FlagPair) (s : State) :
    (execEffect (.mdf select want) s).Shows (regs := s.reg) (mem := s.cell) (z := mdfZ select want s.z)
      (c := mdfC select want s.c) (pc := s.pc) (cs := s.cs) (ir := s.ir) (d := s.d) :=
  { s.shows_self with z := rfl, c := rfl }

/-- Settles O25: MDF is its two flag writes and the epilogue, and bits 7 to 0 of its word are ignored. -/
theorem mdfWritesSelectedFlags : Obligations.MdfWritesSelectedFlags := by
  intro select want x s
  refine ⟨?_, (execEffect_mdf_shows select want s).retire⟩
  simpa [Instr.opcode, operandNumber, Nat.add_assoc] using decodeWord_of_ignored_7to0 (i := .mdf select want) rfl x

end Sys2Proof.Machine

/-! ### Nothing stops the machine (spec/60_exceptions.md R140, R154; spec/30_encoding.md R62) -/

namespace Sys2Proof.Machine

theorem step_next (s : State) : ∃ t, step s = .next t := by
  cases hcs : s.cs with
  | fetch => exact ⟨_, step_fetch hcs⟩
  | decode => exact ⟨_, step_decode hcs⟩
  | execute => exact ⟨_, (step_execute hcs).trans (exec_eq _ _)⟩
  | halt => exact ⟨_, step_halt hcs⟩

theorem safeRun (s : State) : SafeRun s := by
  intro n
  induction n generalizing s with
  | zero => exact ⟨s, rfl⟩
  | succ n ih =>
    obtain ⟨t, first⟩ := step_next s
    obtain ⟨u, rest⟩ := ih t
    exact ⟨u, andThen_eq_next.mpr ⟨t, first, rest⟩⟩

/-- A table row of 16 bits is the word it writes. -/
theorem decodeTableWord_16 (w : Nat) : decodeTableWord 16 w = some (decodeWord (tableWord 16 w)) := by
  rw [decodeTableWord, decodeBytes_pair]
  rfl

/-- Settles O37: each of the four sub-steps answers, so runs do by induction on their length. -/
theorem nothingStopsTheMachine : Obligations.NothingStopsTheMachine :=
  ⟨step_next, fun i s => ⟨_, exec_eq i s⟩, fun w => ⟨_, decodeTableWord_16 w⟩, safeRun⟩

end Sys2Proof.Machine

/-! ### The host's operations (spec/60_exceptions.md R147) -/

namespace Sys2Proof.Machine

/-! #### The stepping operations are runs of `sub_step` (spec/40_cycle_engine.md R77, R78) -/

/-- Some number of sub-steps lead from one state to another. -/
abbrev SubSteps (cfg : Config) : State → State → Prop := Relation.ReflTransGen fun s t => subStepWith cfg s = .next t

section SubSteps

variable {cfg : Config} {s t : State}

/-- What every sub-step keeps, a run of them keeps. -/
theorem SubSteps.preserves {P : State → Prop} (kept : ∀ {s t}, P s → subStepWith cfg s = .next t → P t)
    (run : SubSteps cfg s t) (h : P s) : P t := by
  induction run with
  | refl => exact h
  | tail _ last ih => exact kept ih last

theorem subSteps_of_untilExecuted {fuel : Nat} (h : untilExecuted (subStepWith cfg) fuel s = .next t) :
    SubSteps cfg s t := by
  induction fuel generalizing s with
  | zero => cases h; exact .refl
  | succ fuel ih =>
    obtain ⟨u, first, rest⟩ := andThen_eq_next.mp h
    split at rest
    · cases rest; exact .single first
    · exact .head first (ih rest)

theorem subSteps_of_fullStep (h : fullStep cfg s = .next t) : SubSteps cfg s t := by
  by_cases hcs : s.cs = .halt
  · cases (fullStep_halt hcs).symm.trans h
    exact .refl
  · exact subSteps_of_untilExecuted ((fullStep_of_not_halt hcs).symm.trans h)

/-- A run until Halt is a run of sub-steps if each of its moves is. -/
theorem subSteps_of_haltsAt {go : State → Result} (h : HaltsAt go s t)
    (moves : ∀ {s u}, go s = .next u → SubSteps cfg s u) : SubSteps cfg s t :=
  h.induction (P := (SubSteps cfg · t)) (fun _ => .refl) fun _ moved rest => (moves moved).trans rest

theorem subSteps_of_runPart {hint fuel : Nat} (h : runPart cfg hint fuel s = some t) : SubSteps cfg s t :=
  subSteps_of_haltsAt ⟨fuel, h⟩ fun moved => .single moved

theorem subSteps_of_runFull {hint fuel : Nat} (h : runFull cfg hint fuel s = some t) : SubSteps cfg s t :=
  subSteps_of_haltsAt ⟨fuel, h⟩ subSteps_of_fullStep

theorem nextState_eq_some {r : Result} : nextState r = some t ↔ r = .next t := by
  cases r <;> simp [nextState]

end SubSteps

/-! #### What each operation can leave -/

/-- What an operation of the host can leave of a machine: a reset one, the same one with another memory or after some
sub-steps, or a poked one. A memory that an operation makes is canonical if the one before was. -/
inductive HostCallLeaves (cfg : Config) (s : State) : HostOp → State → Prop where
  | create : HostCallLeaves cfg s .create State.reset
  | resetRegisters : HostCallLeaves cfg s .resetRegisters (warmReset cfg s)
  | memory {op : HostOp} (m : Memory) (canonical : s.MemCanonical → m.wf = true) :
    HostCallLeaves cfg s op { s with mem := m }
  | subSteps {op : HostOp} {t : State} (run : SubSteps cfg s t) : HostCallLeaves cfg s op t
  | poke (p : Place) (v : Nat) : HostCallLeaves cfg s (.poke p v) (Machine.poke p v s)

section HostCall

variable {cfg : Config} {s t : State} {op : HostOp} {reply : HostReply}

theorem afterFailedLoad_eq (src : ImageSource) (s : State) :
    afterFailedLoad src s = { s with mem := (afterFailedLoad src s).mem } := by
  cases src <;> rfl

theorem hostCall_loadMemory_leaves {src : ImageSource} (h : hostCall cfg (.loadMemory src) s = (reply, some t)) :
    HostCallLeaves cfg s (.loadMemory src) t := by
  cases loaded : loadMemory src s with
  | ok u =>
    simp only [hostCall, loaded] at h
    cases h
    obtain ⟨bs, -, -, rfl, wf⟩ := loadMemory_ok loaded
    exact .memory _ fun _ => wf
  | error e =>
    cases (hostCall_loadMemory_of_error loaded cfg).symm.trans h
    rw [afterFailedLoad_eq]
    exact .memory _ fun wf => afterFailedLoad_wf wf src

/-- Every operation of R147's table, by what it leaves. -/
theorem hostCall_leaves (h : hostCall cfg op s = (reply, some t)) : HostCallLeaves cfg s op t := by
  cases op with
  | create => cases h; exact .create
  | resetRegisters => cases h; exact .resetRegisters
  | clearMemory => cases h; exact .memory [] fun _ => rfl
  | loadMemory src => exact hostCall_loadMemory_leaves h
  | saveMemory sink => cases sink <;> cases h <;> exact .subSteps .refl
  | subStep => exact .subSteps (.single (nextState_eq_some.mp (congrArg Prod.snd h)))
  | fullStep => exact .subSteps (subSteps_of_fullStep (nextState_eq_some.mp (congrArg Prod.snd h)))
  | runPart hint fuel =>
    cases run : runPart cfg hint fuel s <;> simp only [hostCall, run] at h <;> cases h
    exact .subSteps (subSteps_of_runPart run)
  | runFull hint fuel =>
    cases run : runFull cfg hint fuel s <;> simp only [hostCall, run] at h <;> cases h
    exact .subSteps (subSteps_of_runFull run)
  | read p => cases h; exact .subSteps .refl
  | poke p v => cases h; exact .poke p v

end HostCall

end Sys2Proof.Machine

/-! ### Halt (spec/60_exceptions.md R153) -/

namespace Sys2Proof.Machine

theorem nextCs_eq_halt_iff {i : Instr} : nextCs i = .halt ↔ i = .hlt :=
  ⟨fun halts => eq_hlt_of_nextCs (by simp [halts]), fun hlt => by rw [hlt]; rfl⟩

/-- Of the four sub-steps, one is in Halt already, and Execute is the only other that can end there. -/
theorem cs_step_eq_halt_iff {s t : State} (h : step s = .next t) :
    t.cs = .halt ↔ s.cs = .halt ∨ (s.cs = .execute ∧ pendingInstr s = .hlt) := by
  obtain ⟨hcs, rfl⟩ | ⟨hcs, rfl⟩ | ⟨hcs, executed⟩ | ⟨hcs, rfl⟩ := step_cases h
  · simp [hcs]
  · simp [hcs]
  · rw [eq_of_exec executed, State.setCs_cs, nextCs_eq_halt_iff]
    simp [hcs]
  · simp [hcs]

theorem SubSteps.halt {cfg : Config} {s t : State} (run : SubSteps cfg s t) (hcs : s.cs = .halt) : t.cs = .halt :=
  run.preserves (P := (State.cs · = .halt)) (fun halted sub => by
    cases (subStepWith_halt halted).symm.trans sub
    exact halted) hcs

/-- Settles O33: `cs_step_eq_halt_iff` for what enters Halt; neither another memory nor a run of sub-steps leaves it. -/
theorem haltIsEnteredByHltAndLeftByReset : Obligations.HaltIsEnteredByHltAndLeftByReset := by
  refine ⟨fun s t => cs_step_eq_halt_iff, fun s t hcs h => ?_, fun cfg op s t reply hcs notCreate notReset notPoke h => ?_,
    fun _ _ _ => ⟨rfl, rfl, rfl, fun _ => rfl⟩⟩
  · cases (step_halt hcs).symm.trans h
    rfl
  · cases hostCall_leaves h with
    | create => exact absurd rfl notCreate
    | resetRegisters => exact absurd rfl notReset
    | memory m _ => exact hcs
    | subSteps run => exact run.halt hcs
    | poke p v => exact absurd rfl (notPoke p v)

end Sys2Proof.Machine

/-! ### Canonical memory and coherent scratch fields under the host's operations (spec/10_state.md R23, in mid-cycle R163) -/

namespace Sys2Proof.Machine

/-- In Fetch nothing is asked of the scratch fields: the cycle has yet to fill them. -/
theorem State.ScratchCoherent.of_fetch {s : State} (hcs : s.cs = .fetch) : s.ScratchCoherent := by
  simp [State.ScratchCoherent, hcs]

section SubStep

variable {cfg : Config} {s t : State}

/-- `step_cases` under any parameters. -/
theorem subStepWith_cases (h : subStepWith cfg s = .next t) :
    (s.cs = .fetch ∧ t = fetchPhase s) ∨ (s.cs = .decode ∧ t = decodePhase s) ∨
    (s.cs = .execute ∧ t = ((execEffect (selectControl cfg s (pendingInstr s)) s).setPc
      (nextPcWith cfg (pendingInstr s) s)).setCs (nextCs (pendingInstr s))) ∨ (s.cs = .halt ∧ t = s) := by
  cases hcs : s.cs with
  | fetch => cases (subStepWith_fetch hcs).symm.trans h; simp
  | decode => cases (subStepWith_decode hcs).symm.trans h; simp
  | execute => cases ((subStepWith_execute hcs).trans (execWith_eq _ _ _)).symm.trans h; simp
  | halt => cases (subStepWith_halt hcs).symm.trans h; simp

theorem memCanonical_subStepWith (wf : s.MemCanonical) (h : subStepWith cfg s = .next t) : t.MemCanonical := by
  obtain ⟨-, rfl⟩ | ⟨-, rfl⟩ | ⟨-, rfl⟩ | ⟨-, rfl⟩ := subStepWith_cases h
  · exact wf
  · exact wf
  · exact execEffect_wf wf _
  · exact wf

/-- A HLT that enters Halt is the decoded `ir`, and leaves its word and fields where they are. -/
theorem scratchCoherent_subStepWith (coherent : s.ScratchCoherent) (h : subStepWith cfg s = .next t) :
    t.ScratchCoherent := by
  obtain ⟨-, rfl⟩ | ⟨-, rfl⟩ | ⟨hcs, rfl⟩ | ⟨-, rfl⟩ := subStepWith_cases h
  · simp [State.ScratchCoherent]
  · simp [State.ScratchCoherent]
  · have hd := coherent.1 hcs
    rw [pendingInstr_of_d hd]
    by_cases next : nextCs (decodeWord s.ir) = .fetch
    · exact .of_fetch next
    · have hlt := eq_hlt_of_nextCs next
      rw [hlt] at hd ⊢
      exact ⟨by simp [nextCs], fun _ => ⟨hlt, hd⟩⟩
  · exact coherent

end SubStep

/-- Settles O46: the resets leave Fetch, a memory an operation makes is canonical and touches no scratch field, and every
sub-step keeps both. -/
theorem hostOperationsKeepTheMachineCoherent : Obligations.HostOperationsKeepTheMachineCoherent := by
  intro cfg op s t reply notPoke wf coherent h
  cases hostCall_leaves h with
  | create => exact ⟨State.wf_reset, .of_fetch rfl⟩
  | resetRegisters => exact ⟨wf, .of_fetch rfl⟩
  | memory m canonical => exact ⟨canonical wf, coherent⟩
  | subSteps run => exact ⟨run.preserves memCanonical_subStepWith wf, run.preserves scratchCoherent_subStepWith coherent⟩
  | poke p v => exact absurd rfl (notPoke p v)

end Sys2Proof.Machine

/-! ### The read accessors and poke (spec/60_exceptions.md R149, R150) -/

namespace Sys2Proof.Machine

/-! #### The status byte (spec/10_state.md R15, R16, R19) -/

/-- R15's layout, at each value of its three parts. -/
theorem statusByte_layout : ∀ (k : FlagPair) (z c : Bool),
    let sr : Byte := BitVec.ofNat 8 (k.toNat * 4 + z.toNat * 2 + c.toNat)
    sr.getLsbD 0 = c ∧ sr.getLsbD 1 = z ∧ sr.extractLsb' 4 4 = 0 ∧ sr.extractLsb' 2 2 = k := by decide

/-- Settles O51: an accessor is read off the state, and the status byte off `statusByte_layout` at the cycle state's code. -/
theorem accessorsShowTheStatusByte : Obligations.AccessorsShowTheStatusByte := by
  refine ⟨fun _ _ _ => rfl, fun _ => ⟨fun _ => rfl, fun _ => rfl, rfl, rfl, rfl, rfl, rfl, rfl, rfl⟩, fun s => ?_⟩
  obtain ⟨carry, zero, upper, cycle⟩ := statusByte_layout s.cs.code s.z s.c
  refine ⟨carry, zero, upper, cycle.trans ?_⟩
  cases s.cs <;> rfl

/-! #### Poke -/

@[simp] theorem CycleState.code_ofCode : ∀ k : FlagPair, (CycleState.ofCode k).code = k := by decide

/-- R19: a poke of the status register is reduced modulo 16. -/
theorem sr_poke_sr (v : Nat) (s : State) : (poke .sr v s).sr = BitVec.ofNat 8 (v % 16) := by
  apply BitVec.eq_of_toNat_eq
  rw [State.sr_toNat]
  simp only [poke, State.setC_cs, State.setZ_cs, State.setCs_cs, State.setC_z, State.setZ_z, State.setC_c,
    CycleState.code_ofCode, Nat.toNat_testBit, BitVec.toNat_ofNat]
  omega

theorem State.setReg_shows (s : State) (r : RegIdx) (v : Byte) :
    (s.setReg r v).Shows (regs := Function.update s.reg r v) (mem := s.cell) (z := s.z) (c := s.c) (pc := s.pc)
      (cs := s.cs) (ir := s.ir) (d := s.d) :=
  { s.shows_self with regs := fun q => by rw [State.reg_setReg, Function.update_apply] }

theorem State.setCell_shows (s : State) (a v : Byte) :
    (s.setCell a v).Shows (regs := s.reg) (mem := Function.update s.cell a v) (z := s.z) (c := s.c) (pc := s.pc)
      (cs := s.cs) (ir := s.ir) (d := s.d) :=
  { s.shows_self with mem := fun b => by rw [State.cell_setCell, Function.update_apply] }

theorem scratchIndex_cases : ∀ k : FlagPair, k = 0 ∨ k = 1 ∨ k = 2 ∨ k = 3 := by decide

/-- A write of one scratch field changes that field only. -/
theorem scratchField_setScratchField (d : Scratch) (j k : FlagPair) (v : Byte) :
    scratchField (setScratchField d k v) j = if j = k then v else scratchField d j := by
  obtain rfl | rfl | rfl | rfl := scratchIndex_cases k <;> obtain rfl | rfl | rfl | rfl := scratchIndex_cases j <;> rfl

theorem ofNat_mod_width (w v : Nat) : BitVec.ofNat w (v % 2 ^ w) = BitVec.ofNat w v :=
  BitVec.eq_of_toNat_eq (by simp)

/-- Settles O52: a poke is the write of its target, and a bit vector of a number is that of the number reduced to its width. -/
theorem pokeReducesToTheTargetsWidth : Obligations.PokeReducesToTheTargetsWidth := by
  intro v s
  rw [show BitVec.ofNat 8 (v % 256) = BitVec.ofNat 8 v from ofNat_mod_width 8 v,
    show BitVec.ofNat 16 (v % 65536) = BitVec.ofNat 16 v from ofNat_mod_width 16 v]
  exact ⟨fun r => s.setReg_shows r _, fun a => s.setCell_shows a _, { s.shows_self with pc := rfl },
    { s.shows_self with ir := rfl }, sr_poke_sr v s, { s.shows_self with z := rfl, c := rfl, cs := rfl },
    fun k => ⟨{ s.shows_self with d := rfl }, fun j => scratchField_setScratchField s.d j k _⟩⟩

end Sys2Proof.Machine

/-! ### The resets and the zero word (spec/70_reset_and_hazards.md R160 to R163, R166) -/

namespace Sys2Proof

/-- The converse of `toNat_lt_of_decodeWord_eq_hlt`: bits 11 to 0 of HLT's word are ignored. -/
theorem decodeWord_eq_hlt_of_toNat_lt {w : Word} (h : w.toNat < 0x1000) : decodeWord w = .hlt := by
  simpa [Instr.opcode] using decodeWord_of_ignored_11to0 (i := .hlt) rfl h

namespace Machine

theorem decodeWord_fetchWord_of_zero_opcode {s : State} (zero : (s.cell s.pc).toNat < 0x10) :
    decodeWord (fetchWord s) = .hlt := by
  apply decodeWord_eq_hlt_of_toNat_lt
  rw [fetchWord_toNat]
  omega

/-- From Fetch, three steps on a HLT advance `pc` and leave its word and its scratch fields. -/
theorem runSteps_three_of_hlt {s : State} (hcs : s.cs = .fetch) (hlt : decodeWord (fetchWord s) = .hlt) :
    ∃ t, runSteps 3 s = .next t ∧
      t.Shows (regs := s.reg) (mem := s.cell) (z := s.z) (c := s.c) (pc := s.pc + 2) (cs := .halt)
        (ir := fetchWord s) (d := scratchOf .hlt) := by
  obtain ⟨t, executed, shows⟩ := execWith_hlt_shows params (decodePhase (fetchPhase s))
  have fields : (decodePhase (fetchPhase s)).d = scratchOf .hlt := congrArg scratchOf hlt
  refine ⟨t, ?_, { shows with d := shows.d.trans fields }⟩
  rw [runSteps_three_of_fetch hcs, hlt, ← execWith_params, executed]

/-- Settles O42: a first byte below 0x10 is HLT's, and a reset memory holds 0. -/
theorem zeroOpcodeHaltsAndChangesNothingElse : Obligations.ZeroOpcodeHaltsAndChangesNothingElse :=
  ⟨fun _ hcs zero => runSteps_three_of_hlt hcs (decodeWord_fetchWord_of_zero_opcode zero), by decide, rfl⟩

/-- Settles O47: the registers are `reg_reset`'s, and the rest is read off the reset state. -/
theorem coldResetState : Obligations.ColdResetState :=
  ⟨{ State.reset.shows_self with regs := reg_reset }, rfl⟩

/-- A warm reset shows the reset state but for memory, which it keeps, and the scratch fields. -/
theorem warmReset_shows (cfg : Config) (s : State) :
    (warmReset cfg s).Shows (regs := fun r => if r = 15 then 255 else 0) (mem := s.cell) (z := false) (c := false)
      (pc := 0) (cs := .fetch) (ir := 0) (d := if cfg.warmResetClearsScratch then ⟨0, 0, 0, 0⟩ else s.d) :=
  { (warmReset cfg s).shows_self with regs := reg_reset }

/-- Settles O49: a warm reset keeps at most memory and the scratch fields, so clearing both leaves the reset state. -/
theorem warmResetKeepsMemory : Obligations.WarmResetKeepsMemory :=
  ⟨warmReset_shows, fun _ => rfl, fun _ _ => rfl⟩

end Machine

end Sys2Proof
